-- ==== Sys2Proof/Word.lean ====
section
/-! DEFINITION. The word, the byte, the register fields, and the two readings of a word
(00_scope.md rules R6 and R7). -/

namespace Sys2Proof

/-- R5 `WORD_BITS`, R7: every word, register and address of the machine is 16 bits. -/
abbrev Word := BitVec 16

/-- One byte of the host's streams and of the object file. -/
abbrev Byte := BitVec 8

/-- A four-bit register field of the first word (R71): `gr`, `xr` or `r2`, as encoded. -/
abbrev Field := BitVec 4

/-- The number of an existing general register, GR0 to GR7 (R20). -/
abbrev Reg := Fin 8

/-- R7 `s(v)`: the word read as two's complement, in -32768..32767. -/
abbrev signed (v : Word) : Int := v.toInt

/-- R7 `u(v)`: the word read as unsigned, in 0..65535, as an unbounded integer. -/
abbrev unsigned (v : Word) : Int := (v.toNat : Int)

/-- R7 `wrap(x) = x mod 65536`, for any integer. -/
abbrev wrap (x : Int) : Word := BitVec.ofInt 16 x

/-- R7 `zext_16(b)`: the word whose low byte is `b` and whose high byte is zero. -/
abbrev zext16 (b : Byte) : Word := b.setWidth 16

end Sys2Proof
end

