-- ==== Sys2Proof/Syntax.lean ====
section
/-! DEFINITION. The 38 instructions of the opcode map (30_encoding.md rule R75), one constructor for each
row of spec/opcode_table.json, with exactly the operands its format gives it (R72). A field that the
format ignores (R79) is no operand. Register fields stay four bits wide, as encoded (R22): whether one
names a register is checked where the instruction runs (R82). -/

namespace Sys2Proof

/-- One instruction. `gr`, `r1`, `r2` and `xr` are the four-bit fields of the first word; `adr` is the
second word of a two-word instruction. -/
inductive Instr where
  /-- 0x00 `NOP` (R175) -/
  | nop
  /-- 0x10 `LD r, adr[, x]` (R100) -/
  | ldMem (gr xr : Field) (adr : Word)
  /-- 0x11 `ST r, adr[, x]` (R102) -/
  | st (gr xr : Field) (adr : Word)
  /-- 0x12 `LAD r, adr[, x]` (R103) -/
  | lad (gr xr : Field) (adr : Word)
  /-- 0x14 `LD r1, r2` (R101) -/
  | ldReg (r1 r2 : Field)
  /-- 0x20 `ADDA r, adr[, x]` (R110) -/
  | addaMem (gr xr : Field) (adr : Word)
  /-- 0x21 `SUBA r, adr[, x]` (R112) -/
  | subaMem (gr xr : Field) (adr : Word)
  /-- 0x22 `ADDL r, adr[, x]` (R114) -/
  | addlMem (gr xr : Field) (adr : Word)
  /-- 0x23 `SUBL r, adr[, x]` (R116) -/
  | sublMem (gr xr : Field) (adr : Word)
  /-- 0x24 `ADDA r1, r2` (R111) -/
  | addaReg (r1 r2 : Field)
  /-- 0x25 `SUBA r1, r2` (R113) -/
  | subaReg (r1 r2 : Field)
  /-- 0x26 `ADDL r1, r2` (R115) -/
  | addlReg (r1 r2 : Field)
  /-- 0x27 `SUBL r1, r2` (R117) -/
  | sublReg (r1 r2 : Field)
  /-- 0x30 `AND r, adr[, x]` (R118) -/
  | andMem (gr xr : Field) (adr : Word)
  /-- 0x31 `OR r, adr[, x]` (R120) -/
  | orMem (gr xr : Field) (adr : Word)
  /-- 0x32 `XOR r, adr[, x]` (R122) -/
  | xorMem (gr xr : Field) (adr : Word)
  /-- 0x34 `AND r1, r2` (R119) -/
  | andReg (r1 r2 : Field)
  /-- 0x35 `OR r1, r2` (R121) -/
  | orReg (r1 r2 : Field)
  /-- 0x36 `XOR r1, r2` (R123) -/
  | xorReg (r1 r2 : Field)
  /-- 0x40 `CPA r, adr[, x]` (R124) -/
  | cpaMem (gr xr : Field) (adr : Word)
  /-- 0x41 `CPL r, adr[, x]` (R126) -/
  | cplMem (gr xr : Field) (adr : Word)
  /-- 0x44 `CPA r1, r2` (R125) -/
  | cpaReg (r1 r2 : Field)
  /-- 0x45 `CPL r1, r2` (R127) -/
  | cplReg (r1 r2 : Field)
  /-- 0x50 `SLA r, adr[, x]` (R140) -/
  | sla (gr xr : Field) (adr : Word)
  /-- 0x51 `SRA r, adr[, x]` (R141) -/
  | sra (gr xr : Field) (adr : Word)
  /-- 0x52 `SLL r, adr[, x]` (R142) -/
  | sll (gr xr : Field) (adr : Word)
  /-- 0x53 `SRL r, adr[, x]` (R143) -/
  | srl (gr xr : Field) (adr : Word)
  /-- 0x61 `JMI adr[, x]` (R150) -/
  | jmi (xr : Field) (adr : Word)
  /-- 0x62 `JNZ adr[, x]` (R151) -/
  | jnz (xr : Field) (adr : Word)
  /-- 0x63 `JZE adr[, x]` (R152) -/
  | jze (xr : Field) (adr : Word)
  /-- 0x64 `JUMP adr[, x]` (R153) -/
  | jump (xr : Field) (adr : Word)
  /-- 0x65 `JPL adr[, x]` (R154) -/
  | jpl (xr : Field) (adr : Word)
  /-- 0x66 `JOV adr[, x]` (R155) -/
  | jov (xr : Field) (adr : Word)
  /-- 0x70 `PUSH adr[, x]` (R160) -/
  | push (xr : Field) (adr : Word)
  /-- 0x71 `POP r` (R161) -/
  | pop (gr : Field)
  /-- 0x80 `CALL adr[, x]` (R162) -/
  | call (xr : Field) (adr : Word)
  /-- 0x81 `RET` (R163) -/
  | ret
  /-- 0xF0 `SVC adr[, x]` (R170) -/
  | svc (xr : Field) (adr : Word)
deriving DecidableEq, Repr

/-- The 28 mnemonics of the opcode map (R75). -/
inductive Mnemonic where
  | NOP | LD | ST | LAD | ADDA | SUBA | ADDL | SUBL | AND | OR | XOR | CPA | CPL
  | SLA | SRA | SLL | SRL | JMI | JNZ | JZE | JUMP | JPL | JOV | PUSH | POP | CALL | RET | SVC
deriving DecidableEq, Repr

/-- The formats of R72; `op5` has a memory form and a register form. -/
inductive Format where
  | op1 | op2 | op3 | op4 | op5Memory | op5Register
deriving DecidableEq, Repr

/-- One row of the opcode map (R75): the value of bits 15..8 of the first word, the mnemonic and the
format it selects. -/
structure OpRow where
  op : BitVec 8
  mnemonic : Mnemonic
  format : Format
deriving DecidableEq, Repr

/-- The operand form of a word in the disassembler's view (R81): the operands of a format, or the word
itself as a literal text. -/
inductive OperandForm where
  | operands (format : Format)
  | literal (text : List Char)
deriving DecidableEq, Repr

/-- The disassembler's view of a word (R81). -/
structure WordView where
  mnemonic : List Char
  form : OperandForm
  size : Nat
deriving DecidableEq, Repr

end Sys2Proof
end

