-- ==== Sys2Proof/WellFormed.lean ====
section
/-! DEFINITION. When an instruction is well formed: every field it uses as a register names one of GR0 to
GR7 (10_state.md rule R22, 30_encoding.md rule R83). The index field `xr` is never illegal. -/

namespace Sys2Proof

/-- R22: of the sixteen values of a register field only 0..7 name a register. -/
def Field.namesRegister (f : Field) : Bool := decide (f.toNat < 8)

/-- R83: the fields an instruction uses as registers, in the order the step checks them (R82, R206). -/
def Instr.registerFields : Instr → List Field
  | .ldMem gr _ _ | .st gr _ _ | .lad gr _ _ => [gr]
  | .addaMem gr _ _ | .subaMem gr _ _ | .addlMem gr _ _ | .sublMem gr _ _ => [gr]
  | .andMem gr _ _ | .orMem gr _ _ | .xorMem gr _ _ => [gr]
  | .cpaMem gr _ _ | .cplMem gr _ _ => [gr]
  | .sla gr _ _ | .sra gr _ _ | .sll gr _ _ | .srl gr _ _ => [gr]
  | .pop gr => [gr]
  | .ldReg r1 r2 => [r1, r2]
  | .addaReg r1 r2 | .subaReg r1 r2 | .addlReg r1 r2 | .sublReg r1 r2 => [r1, r2]
  | .andReg r1 r2 | .orReg r1 r2 | .xorReg r1 r2 => [r1, r2]
  | .cpaReg r1 r2 | .cplReg r1 r2 => [r1, r2]
  | .nop | .ret => []
  | .jmi _ _ | .jnz _ _ | .jze _ _ | .jump _ _ | .jpl _ _ | .jov _ _ => []
  | .push _ _ | .call _ _ | .svc _ _ => []

/-- R22, R83: no used register field holds 8..15. -/
def Instr.wellFormed (i : Instr) : Bool := i.registerFields.all Field.namesRegister

end Sys2Proof
end

