-- ==== Sys2Proof/Decode.lean ====
section
/-! DEFINITION. Decoding and encoding (30_encoding.md rules R70 to R81): the fields of the first word,
the opcode map, the decoder, the encoder, the disassembler's view of a word, and the host's table-word
entry point. -/

namespace Sys2Proof

/-- R71 `op = word[15:8]`. -/
def opOf (word : Word) : BitVec 8 := word.extractLsb' 8 8

/-- R71 `gr = word[7:4]`. -/
def grOf (word : Word) : Field := word.extractLsb' 4 4

/-- R71 `xr = word[3:0]`; the same bits are `r2` in a register form. -/
def xrOf (word : Word) : Field := word.extractLsb' 0 4

/-- R73 `(op<<8)|(gr<<4)|xr`: the first word the assembler builds. -/
def packWord (op : BitVec 8) (gr xr : Field) : Word :=
  (op.setWidth 16 <<< 8) ||| (gr.setWidth 16 <<< 4) ||| xr.setWidth 16

/-- R72: how many words an instruction of a format occupies. -/
def Format.words : Format → Nat
  | .op1 | .op2 | .op5Memory => 2
  | .op3 | .op4 | .op5Register => 1

/-- R75, first part of the opcode map: no-operation, loads and stores. -/
def opcodeMapLoadStore : List OpRow :=
  [⟨0x00#8, .NOP, .op4⟩,
   ⟨0x10#8, .LD, .op5Memory⟩,
   ⟨0x11#8, .ST, .op1⟩,
   ⟨0x12#8, .LAD, .op1⟩,
   ⟨0x14#8, .LD, .op5Register⟩]

/-- R75, second part: arithmetic. -/
def opcodeMapArith : List OpRow :=
  [⟨0x20#8, .ADDA, .op5Memory⟩,
   ⟨0x21#8, .SUBA, .op5Memory⟩,
   ⟨0x22#8, .ADDL, .op5Memory⟩,
   ⟨0x23#8, .SUBL, .op5Memory⟩,
   ⟨0x24#8, .ADDA, .op5Register⟩,
   ⟨0x25#8, .SUBA, .op5Register⟩,
   ⟨0x26#8, .ADDL, .op5Register⟩,
   ⟨0x27#8, .SUBL, .op5Register⟩]

/-- R75, third part: logic and compare. -/
def opcodeMapLogic : List OpRow :=
  [⟨0x30#8, .AND, .op5Memory⟩,
   ⟨0x31#8, .OR, .op5Memory⟩,
   ⟨0x32#8, .XOR, .op5Memory⟩,
   ⟨0x34#8, .AND, .op5Register⟩,
   ⟨0x35#8, .OR, .op5Register⟩,
   ⟨0x36#8, .XOR, .op5Register⟩,
   ⟨0x40#8, .CPA, .op5Memory⟩,
   ⟨0x41#8, .CPL, .op5Memory⟩,
   ⟨0x44#8, .CPA, .op5Register⟩,
   ⟨0x45#8, .CPL, .op5Register⟩]

/-- R75, fourth part: shifts and jumps. -/
def opcodeMapShiftJump : List OpRow :=
  [⟨0x50#8, .SLA, .op1⟩,
   ⟨0x51#8, .SRA, .op1⟩,
   ⟨0x52#8, .SLL, .op1⟩,
   ⟨0x53#8, .SRL, .op1⟩,
   ⟨0x61#8, .JMI, .op2⟩,
   ⟨0x62#8, .JNZ, .op2⟩,
   ⟨0x63#8, .JZE, .op2⟩,
   ⟨0x64#8, .JUMP, .op2⟩,
   ⟨0x65#8, .JPL, .op2⟩,
   ⟨0x66#8, .JOV, .op2⟩]

/-- R75, last part: stack, call, return, supervisor call. -/
def opcodeMapStackSystem : List OpRow :=
  [⟨0x70#8, .PUSH, .op2⟩,
   ⟨0x71#8, .POP, .op3⟩,
   ⟨0x80#8, .CALL, .op2⟩,
   ⟨0x81#8, .RET, .op4⟩,
   ⟨0xF0#8, .SVC, .op2⟩]

/-- The opcode map of R75, 38 rows in the spec's order (log entry 3: most numbers are the spec's own
general knowledge). -/
def opcodeMap : List OpRow :=
  opcodeMapLoadStore ++ opcodeMapArith ++ opcodeMapLogic ++ opcodeMapShiftJump ++ opcodeMapStackSystem

/-- R78: look `op` up in the opcode map. -/
def lookupOp (op : BitVec 8) : Option OpRow := opcodeMap.find? fun r => r.op == op

/-- Why the decoder refuses a word: its high byte is not in the opcode map (R80). This is the only
reason: bits 7..0 never select an instruction (R78), and a register field 8..15 is found by the step
(R82), not by the decoder. -/
inductive DecodeError where
  | illegalOp (op : BitVec 8)
deriving DecidableEq, Repr

/-- R78: the instruction whose first word is `word`, `adr` being the word that follows it in memory
(R57: both are always read). A one-word instruction ignores `adr`, and a field its format does not use
is dropped (R79). Total: an `op` outside the map is rejected by name. -/
def decode (word adr : Word) : Except DecodeError Instr :=
  match opOf word with
  | 0x00#8 => .ok .nop
  | 0x10#8 => .ok (.ldMem (grOf word) (xrOf word) adr)
  | 0x11#8 => .ok (.st (grOf word) (xrOf word) adr)
  | 0x12#8 => .ok (.lad (grOf word) (xrOf word) adr)
  | 0x14#8 => .ok (.ldReg (grOf word) (xrOf word))
  | 0x20#8 => .ok (.addaMem (grOf word) (xrOf word) adr)
  | 0x21#8 => .ok (.subaMem (grOf word) (xrOf word) adr)
  | 0x22#8 => .ok (.addlMem (grOf word) (xrOf word) adr)
  | 0x23#8 => .ok (.sublMem (grOf word) (xrOf word) adr)
  | 0x24#8 => .ok (.addaReg (grOf word) (xrOf word))
  | 0x25#8 => .ok (.subaReg (grOf word) (xrOf word))
  | 0x26#8 => .ok (.addlReg (grOf word) (xrOf word))
  | 0x27#8 => .ok (.sublReg (grOf word) (xrOf word))
  | 0x30#8 => .ok (.andMem (grOf word) (xrOf word) adr)
  | 0x31#8 => .ok (.orMem (grOf word) (xrOf word) adr)
  | 0x32#8 => .ok (.xorMem (grOf word) (xrOf word) adr)
  | 0x34#8 => .ok (.andReg (grOf word) (xrOf word))
  | 0x35#8 => .ok (.orReg (grOf word) (xrOf word))
  | 0x36#8 => .ok (.xorReg (grOf word) (xrOf word))
  | 0x40#8 => .ok (.cpaMem (grOf word) (xrOf word) adr)
  | 0x41#8 => .ok (.cplMem (grOf word) (xrOf word) adr)
  | 0x44#8 => .ok (.cpaReg (grOf word) (xrOf word))
  | 0x45#8 => .ok (.cplReg (grOf word) (xrOf word))
  | 0x50#8 => .ok (.sla (grOf word) (xrOf word) adr)
  | 0x51#8 => .ok (.sra (grOf word) (xrOf word) adr)
  | 0x52#8 => .ok (.sll (grOf word) (xrOf word) adr)
  | 0x53#8 => .ok (.srl (grOf word) (xrOf word) adr)
  | 0x61#8 => .ok (.jmi (xrOf word) adr)
  | 0x62#8 => .ok (.jnz (xrOf word) adr)
  | 0x63#8 => .ok (.jze (xrOf word) adr)
  | 0x64#8 => .ok (.jump (xrOf word) adr)
  | 0x65#8 => .ok (.jpl (xrOf word) adr)
  | 0x66#8 => .ok (.jov (xrOf word) adr)
  | 0x70#8 => .ok (.push (xrOf word) adr)
  | 0x71#8 => .ok (.pop (grOf word))
  | 0x80#8 => .ok (.call (xrOf word) adr)
  | 0x81#8 => .ok .ret
  | 0xF0#8 => .ok (.svc (xrOf word) adr)
  | op => .error (.illegalOp op)

/-- R73: the words of an instruction as the assembler builds them, first word first; fields the format
ignores are zero. -/
def encode : Instr → List Word
  | .nop => [packWord 0x00#8 0#4 0#4]
  | .ldMem gr xr adr => [packWord 0x10#8 gr xr, adr]
  | .st gr xr adr => [packWord 0x11#8 gr xr, adr]
  | .lad gr xr adr => [packWord 0x12#8 gr xr, adr]
  | .ldReg r1 r2 => [packWord 0x14#8 r1 r2]
  | .addaMem gr xr adr => [packWord 0x20#8 gr xr, adr]
  | .subaMem gr xr adr => [packWord 0x21#8 gr xr, adr]
  | .addlMem gr xr adr => [packWord 0x22#8 gr xr, adr]
  | .sublMem gr xr adr => [packWord 0x23#8 gr xr, adr]
  | .addaReg r1 r2 => [packWord 0x24#8 r1 r2]
  | .subaReg r1 r2 => [packWord 0x25#8 r1 r2]
  | .addlReg r1 r2 => [packWord 0x26#8 r1 r2]
  | .sublReg r1 r2 => [packWord 0x27#8 r1 r2]
  | .andMem gr xr adr => [packWord 0x30#8 gr xr, adr]
  | .orMem gr xr adr => [packWord 0x31#8 gr xr, adr]
  | .xorMem gr xr adr => [packWord 0x32#8 gr xr, adr]
  | .andReg r1 r2 => [packWord 0x34#8 r1 r2]
  | .orReg r1 r2 => [packWord 0x35#8 r1 r2]
  | .xorReg r1 r2 => [packWord 0x36#8 r1 r2]
  | .cpaMem gr xr adr => [packWord 0x40#8 gr xr, adr]
  | .cplMem gr xr adr => [packWord 0x41#8 gr xr, adr]
  | .cpaReg r1 r2 => [packWord 0x44#8 r1 r2]
  | .cplReg r1 r2 => [packWord 0x45#8 r1 r2]
  | .sla gr xr adr => [packWord 0x50#8 gr xr, adr]
  | .sra gr xr adr => [packWord 0x51#8 gr xr, adr]
  | .sll gr xr adr => [packWord 0x52#8 gr xr, adr]
  | .srl gr xr adr => [packWord 0x53#8 gr xr, adr]
  | .jmi xr adr => [packWord 0x61#8 0#4 xr, adr]
  | .jnz xr adr => [packWord 0x62#8 0#4 xr, adr]
  | .jze xr adr => [packWord 0x63#8 0#4 xr, adr]
  | .jump xr adr => [packWord 0x64#8 0#4 xr, adr]
  | .jpl xr adr => [packWord 0x65#8 0#4 xr, adr]
  | .jov xr adr => [packWord 0x66#8 0#4 xr, adr]
  | .push xr adr => [packWord 0x70#8 0#4 xr, adr]
  | .pop gr => [packWord 0x71#8 gr 0#4]
  | .call xr adr => [packWord 0x80#8 0#4 xr, adr]
  | .ret => [packWord 0x81#8 0#4 0#4]
  | .svc xr adr => [packWord 0xF0#8 0#4 xr, adr]

/-- R77: the length of an instruction in words. -/
def Instr.size (i : Instr) : Nat := (encode i).length

/-- The mnemonic of an instruction (R75). -/
def Instr.mnemonic : Instr → Mnemonic
  | .nop => .NOP
  | .ldMem _ _ _ | .ldReg _ _ => .LD
  | .st _ _ _ => .ST
  | .lad _ _ _ => .LAD
  | .addaMem _ _ _ | .addaReg _ _ => .ADDA
  | .subaMem _ _ _ | .subaReg _ _ => .SUBA
  | .addlMem _ _ _ | .addlReg _ _ => .ADDL
  | .sublMem _ _ _ | .sublReg _ _ => .SUBL
  | .andMem _ _ _ | .andReg _ _ => .AND
  | .orMem _ _ _ | .orReg _ _ => .OR
  | .xorMem _ _ _ | .xorReg _ _ => .XOR
  | .cpaMem _ _ _ | .cpaReg _ _ => .CPA
  | .cplMem _ _ _ | .cplReg _ _ => .CPL
  | .sla _ _ _ => .SLA
  | .sra _ _ _ => .SRA
  | .sll _ _ _ => .SLL
  | .srl _ _ _ => .SRL
  | .jmi _ _ => .JMI
  | .jnz _ _ => .JNZ
  | .jze _ _ => .JZE
  | .jump _ _ => .JUMP
  | .jpl _ _ => .JPL
  | .jov _ _ => .JOV
  | .push _ _ => .PUSH
  | .pop _ => .POP
  | .call _ _ => .CALL
  | .ret => .RET
  | .svc _ _ => .SVC

/-- The letters of a mnemonic, as R75 spells it. -/
def Mnemonic.letters : Mnemonic → List Char
  | .NOP => ['N', 'O', 'P']
  | .LD => ['L', 'D']
  | .ST => ['S', 'T']
  | .LAD => ['L', 'A', 'D']
  | .ADDA => ['A', 'D', 'D', 'A']
  | .SUBA => ['S', 'U', 'B', 'A']
  | .ADDL => ['A', 'D', 'D', 'L']
  | .SUBL => ['S', 'U', 'B', 'L']
  | .AND => ['A', 'N', 'D']
  | .OR => ['O', 'R']
  | .XOR => ['X', 'O', 'R']
  | .CPA => ['C', 'P', 'A']
  | .CPL => ['C', 'P', 'L']
  | .SLA => ['S', 'L', 'A']
  | .SRA => ['S', 'R', 'A']
  | .SLL => ['S', 'L', 'L']
  | .SRL => ['S', 'R', 'L']
  | .JMI => ['J', 'M', 'I']
  | .JNZ => ['J', 'N', 'Z']
  | .JZE => ['J', 'Z', 'E']
  | .JUMP => ['J', 'U', 'M', 'P']
  | .JPL => ['J', 'P', 'L']
  | .JOV => ['J', 'O', 'V']
  | .PUSH => ['P', 'U', 'S', 'H']
  | .POP => ['P', 'O', 'P']
  | .CALL => ['C', 'A', 'L', 'L']
  | .RET => ['R', 'E', 'T']
  | .SVC => ['S', 'V', 'C']

/-- One upper-case hexadecimal digit. -/
def hexDigit (d : BitVec 4) : Char :=
  Char.ofNat (if d.toNat < 10 then 48 + d.toNat else 55 + d.toNat)

/-- The four hexadecimal digits of a word, most significant first (`xxxx` of R81, `PPPP` of R200). -/
def hex4 (w : Word) : List Char :=
  [hexDigit (w.extractLsb' 12 4), hexDigit (w.extractLsb' 8 4), hexDigit (w.extractLsb' 4 4),
   hexDigit (w.extractLsb' 0 4)]

/-- R81: the disassembler's view of a word, the triple (mnemonic, operand form, size); a word with an
unknown `op` renders as `DC #xxxx` with size 1. It only serves the debugger's display: the executor
faults on such a word. -/
def viewWord (word : Word) : WordView :=
  match lookupOp (opOf word) with
  | some r => ⟨r.mnemonic.letters, .operands r.format, r.format.words⟩
  | none => ⟨['D', 'C'], .literal ('#' :: hex4 word), 1⟩

/-- The host's entry point: the instruction the decoder reads from table bits `w`, where bits 15..0 are
the first word and bits 31..16 the second; every bit from `nbits` up is zero. -/
def decodeTableWord (nbits w : Nat) : Option Instr :=
  match decode (BitVec.ofNat 16 (w % 2 ^ nbits)) (BitVec.ofNat 16 (w % 2 ^ nbits / 65536)) with
  | .ok i => some i
  | .error _ => none

end Sys2Proof
end

