-- ==== Sys2Proof/Config.lean ====
section
/-! DEFINITION. The implementation parameters of 00_scope.md rule R5, each under its own name, and the
one free value of the model: the input line of a host that has supplied none yet. -/

namespace Sys2Proof.Config

/-- R5 `STACK_TOP`: reset value of SP and the `RET` termination bound. -/
def stackTop : Word := 0xFF00#16

/-- R5 `SYS_IN`: the `SVC` operand that selects the input service. -/
def sysIn : Word := 0xFFF0#16

/-- R5 `SYS_OUT`: the `SVC` operand that selects the output service. -/
def sysOut : Word := 0xFFF2#16

/-- R5 `IN_MAX`: the longest input line, in characters, that the input service stores. -/
def inMax : Nat := 256

/-- R5 `HEADER_BYTES`: the length of the object-file header. -/
def headerBytes : Nat := 16

/-- R5 `MAGIC`: ASCII "CASL". -/
def magic : List Byte := [0x43#8, 0x41#8, 0x53#8, 0x4C#8]

/-- R5 `MAX_IMAGE_WORDS`, the same number as `STACK_TOP`: the largest loadable image. -/
def maxImageWords : Nat := stackTop.toNat

/-- R5 `INIT_GR`, R23: the reset value of every general register (log entry 1). -/
def initGr : Word := 0x0000#16

/-- R5 `INIT_FR`, R32: the reset value of FR (log entry 2). -/
def initFr : BitVec 3 := 0b000#3

/-- R51 "Uninitialized reads yield 0": what a word nobody has written reads as. -/
def unwritten : Word := 0x0000#16

/-- R5 `MEM_WORDS`: the number of addressable words. -/
def memWords : Nat := 65536

/-- R173: the newline byte the output service sends after its characters (log entry 11). -/
def newline : Byte := 0x0A#8

/-- FREE VALUE (R174, log entry 9). The line `HostIn()` returns when the host has queued none in
`State.input`: any byte string, the host's choice. It has no body, so nothing can be proved about its
contents; the argument is the number of such lines read before, so two reads are unrelated. -/
opaque hostLine : Nat → List Byte

end Sys2Proof.Config
end

