-- ==== Sys2Proof/Machine/State.lean ====
section
/-! DEFINITION. The state of the machine (10_state.md), the reasons a step can stop, and the state after
reset (70_reset_and_hazards.md rule R242). -/

namespace Sys2Proof.Machine

/-- R35: the run status. A step is taken only in `running`; the other two are final. -/
inductive RunStatus where
  | running
  /-- a `RET` from the main routine ended the run (R163, R202) -/
  | terminated
  /-- an illegal instruction at address `pc`, whose first word is `word` (R200) -/
  | illegal (pc word : Word)
deriving DecidableEq, Repr

/-- R50: the 65,536 words of memory, as the sorted list of the (address, word) pairs that differ from
what an unlisted address reads as (R51, `Config.unwritten`). The cell is the word, because no smaller
unit has an address (R50, R55; log entry 4). The canonical form is `Memory.wf` of Ops.lean. -/
abbrev Memory := List (Nat × Word)

/-- R36: the machine state. The last three fields are the host's side of the I/O channel (R4, R174),
which the spec keeps outside the machine record; they stand here so that a step is a function of the
state (log entry 9). -/
structure State where
  /-- GR0..GR7 (R20) -/
  gr : Vector Word 8
  /-- the program counter PR (R24) -/
  pr : Word
  /-- the stack pointer SP (R27) -/
  sp : Word
  /-- the flag register FR: OF is bit 2, SF bit 1, ZF bit 0 (R28) -/
  fr : BitVec 3
  /-- memory (R50) -/
  mem : Memory
  /-- the run status (R35) -/
  status : RunStatus
  /-- the lines the host has queued for `HostIn()`, oldest first, without terminators (R174) -/
  input : List (List Byte)
  /-- how many lines were read while none was queued: the argument of `Config.hostLine` -/
  freeReads : Nat
  /-- the bytes sent through `HostOut` so far, oldest first (R174, R217) -/
  output : List Byte
deriving DecidableEq, Repr

/-- Why a step gives no next state. An illegal instruction is no fault here: the spec gives it a next
state, with run status `illegal` (R200, R201). -/
inductive Fault where
  /-- Raised by `step` alone, in a state whose run status is final (R35, R208: "no step is taken from
  them"). Safe: the spec gives the machine no step there. -/
  | notRunning (status : RunStatus)
deriving DecidableEq, Repr

/-- The reasons `exec` could answer that it has no meaning for an instruction. -/
inductive Refusal where
  /-- Answered by an arm of `exec` whose instruction has no meaning yet; no arm answers it. Safe. -/
  | notModelled (mnemonic : String)
deriving DecidableEq, Repr

/-- The answer of an instruction's meaning. -/
abbrev Result := Host.Outcome State Fault Refusal

/-- R242: before any load the machine is in the reset state of R241 for an empty image with entry point
0. The host's channel starts with nothing queued and nothing sent (log entry 9). -/
def State.reset : State :=
  { gr := Vector.replicate 8 Config.initGr
    pr := 0x0000#16
    sp := Config.stackTop
    fr := Config.initFr
    mem := []
    status := .running
    input := []
    freeReads := 0
    output := [] }

end Sys2Proof.Machine
end

