-- ==== Sys2Proof/Machine/Ops.lean ====
section
/-! DEFINITION. The named operations over registers, memory, the stack, the run status and the host I/O
channel: the primitives of 00_scope.md rule R8, taking an exception (60_exceptions.md rule R200), and
the fetch of 30_encoding.md rule R82. -/

namespace Sys2Proof.Machine

/-! ## Memory -/

/-- R51: the word at an address; an unlisted address reads as `Config.unwritten`. -/
def Memory.read : Memory → Nat → Word
  | [], _ => Config.unwritten
  | (k, v) :: m, a => if k = a then v else Memory.read m a

/-- The cell for a word, or nothing where an unlisted address already reads as that word. -/
def Memory.cell (a : Nat) (v : Word) : Memory :=
  if v = Config.unwritten then [] else [(a, v)]

/-- A store of one word, in canonical form. -/
def Memory.write : Memory → Nat → Word → Memory
  | [], a, v => Memory.cell a v
  | (k, w) :: m, a, v =>
    if a < k then Memory.cell a v ++ (k, w) :: m
    else if a = k then Memory.cell a v ++ m
    else (k, w) :: Memory.write m a v

/-- The canonical form: addresses strictly rising and inside the 65,536 words of R50, and no cell equal
to what an unlisted address reads as. -/
def Memory.wf (m : Memory) : Bool :=
  decide (m.Pairwise fun c d => c.1 < d.1) &&
    m.all fun c => decide (c.1 < Config.memWords) && c.2 != Config.unwritten

/-- R8 `MemRead(a, 1)`. -/
def State.readMem (s : State) (a : Word) : Word := Memory.read s.mem a.toNat

/-- R8 `MemWrite(a, 1, v)`. -/
def State.writeMem (s : State) (a v : Word) : State := { s with mem := Memory.write s.mem a.toNat v }

/-! ## Registers -/

/-- R8 `GR[i]`. -/
def State.readGr (s : State) (r : Reg) : Word := s.gr[r]

/-- R8 `GR[i] <- v`. -/
def State.writeGr (s : State) (r : Reg) (v : Word) : State := { s with gr := s.gr.set r v }

/-- R8 `PR <- v`. -/
def State.setPr (s : State) (v : Word) : State := { s with pr := v }

/-- R8 `SP <- v`. -/
def State.setSp (s : State) (v : Word) : State := { s with sp := v }

/-- R8 `FR <- v`. -/
def State.setFr (s : State) (v : BitVec 3) : State := { s with fr := v }

/-- R35: set the run status. -/
def State.setStatus (s : State) (v : RunStatus) : State := { s with status := v }

/-- R24 `PR <- wrap(PR + n)`: past an instruction of `n` words. -/
def State.advance (s : State) (n : Nat) : State := s.setPr (s.pr + BitVec.ofNat 16 n)

/-! ## Fetch -/

/-- R57, R82: the word at PR and the word after it, both read whatever the instruction's size. -/
def State.fetch (s : State) : Word × Word := (s.readMem s.pr, s.readMem (s.pr + 1#16))

/-! ## The exception and the end of a run -/

/-- R200, R201: raise `IllegalInstruction(PR, word)`. The run status records the address and the first
word of the instruction, which is the word at PR while it executes (R24); nothing else is written. There
is no handler, no saved state and no return (R207, R208). -/
def illegalInstruction (s : State) : Result :=
  .next (s.setStatus (.illegal s.pr (s.readMem s.pr)))

/-! ## The stack -/

/-- R158: a push, decrement first, then write. -/
def State.pushWord (s : State) (v : Word) : State :=
  (s.setSp (s.sp - 1#16)).writeMem (s.sp - 1#16) v

/-- R158: the word a pop reads. -/
def State.topWord (s : State) : Word := s.readMem s.sp

/-- R158: a pop increments SP after it has read. -/
def State.dropWord (s : State) : State := s.setSp (s.sp + 1#16)

/-! ## The host I/O channel -/

/-- R174 `HostIn()`: the next input line. It is the oldest line the host has queued or, where none is
queued, a free value; the wait for the host takes no time (log entry 9). -/
def State.hostIn (s : State) : List Byte × State :=
  match s.input with
  | line :: rest => (line, { s with input := rest })
  | [] => (Config.hostLine s.freeReads, { s with freeReads := s.freeReads + 1 })

/-- R174 `HostOut(bytes)`: append to the host's output stream. -/
def State.hostOut (s : State) (bytes : List Byte) : State := { s with output := s.output ++ bytes }

/-- R172: store bytes one per word, zero-extended, at rising addresses modulo 2^16. -/
def State.storeBytes (s : State) (a : Word) : List Byte → State
  | [] => s
  | b :: bs => (s.writeMem a (zext16 b)).storeBytes (a + 1#16) bs

/-- R173: the low bytes of `n` words from an address on, modulo 2^16. -/
def State.loadBytes (s : State) (a : Word) : Nat → List Byte
  | 0 => []
  | n + 1 => (s.readMem a).setWidth 8 :: s.loadBytes (a + 1#16) n

end Sys2Proof.Machine
end

