-- ==== Sys2Proof/Machine/Flags.lean ====
section
/-! DEFINITION. Every flag computation of the spec (10_state.md rule R28 and the overflow tests of
41_arith_logic.md and 42_shift.md), and the flags as the jumps read them. -/

namespace Sys2Proof.Machine

/-- R28 `flagsOf(v)`: the SF and ZF part of FR for a word. -/
def flagsOf (v : Word) : BitVec 3 :=
  if v = 0x0000#16 then 0b001#3 else if v.getLsbD 15 then 0b010#3 else 0b000#3

/-- R28 `(of << 2) | flagsOf(result)`: what an instruction that writes flags writes to FR. -/
def frOf (overflow : Bool) (result : Word) : BitVec 3 :=
  (BitVec.ofBool overflow).setWidth 3 <<< 2 ||| flagsOf result

/-- R106: the signed overflow test, on the result before it is wrapped. -/
def signedOverflow (x : Int) : Bool := decide (x < -32768 ∨ x > 32767)

/-- R107: the unsigned overflow test (carry or borrow), on the result before it is wrapped. -/
def unsignedOverflow (x : Int) : Bool := decide (x < 0 ∨ x > 65535)

/-- R109: saturation of a difference to the signed range. -/
def saturate (d : Int) : Int := min (max d (-32768)) 32767

/-- R140: the last bit an arithmetic left shift of `v` by `n` moves out of bit 14. -/
def slaOverflow (v : Word) (n : Nat) : Bool := if 1 ≤ n ∧ n ≤ 15 then v.getLsbD (15 - n) else false

/-- R141: the last bit an arithmetic right shift of `v` by `n` moves out. -/
def sraOverflow (v : Word) (n : Nat) : Bool :=
  if n = 0 then false else if n ≤ 16 then v.getLsbD (n - 1) else v.getLsbD 15

/-- R142: the last bit a logical left shift of `v` by `n` moves out of bit 15. -/
def sllOverflow (v : Word) (n : Nat) : Bool := if 1 ≤ n ∧ n ≤ 16 then v.getLsbD (16 - n) else false

/-- R143: the last bit a logical right shift of `v` by `n` moves out. -/
def srlOverflow (v : Word) (n : Nat) : Bool := if 1 ≤ n ∧ n ≤ 16 then v.getLsbD (n - 1) else false

/-- R28: OF, bit 2 of FR. -/
def State.overflowFlag (s : State) : Bool := s.fr.getLsbD 2

/-- R28: SF, bit 1 of FR. -/
def State.signFlag (s : State) : Bool := s.fr.getLsbD 1

/-- R28: ZF, bit 0 of FR. -/
def State.zeroFlag (s : State) : Bool := s.fr.getLsbD 0

end Sys2Proof.Machine
end

