-- ==== Sys2Proof/Machine/Operands.lean ====
section
/-! DEFINITION. Every operand form of the spec: a register field, the effective address
(20_memory.md rule R52), and the memory and register forms of a two-operand instruction
(41_arith_logic.md rule R105). -/

namespace Sys2Proof.Machine

/-- R22, R82: use a field as a register. A field of 8..15 names none, and the instruction raises
`IllegalInstruction` before it writes anything. -/
def withRegister (f : Field) (s : State) (use : Reg → Result) : Result :=
  if h : f.toNat < 8 then use ⟨f.toNat, h⟩ else illegalInstruction s

/-- R52, R84: the register a two-word instruction is indexed by; fields 0 and 8..15 index by none. -/
def indexRegister (xr : Field) : Option Reg :=
  if h : 1 ≤ xr.toNat ∧ xr.toNat ≤ 7 then some ⟨xr.toNat, by omega⟩ else none

/-- R52 `eadr = wrap(adr + (if 1 <= xr <= 7 then GR[xr] else 0))`. -/
def effectiveAddress (s : State) (xr : Field) (adr : Word) : Word :=
  match indexRegister xr with
  | some r => adr + s.readGr r
  | none => adr

/-- What a two-operand instruction computes: the word it writes and the flag register. -/
abbrev Alu := Word → Word → Word × BitVec 3

/-- R105: write the result and FR of a two-operand instruction and advance by its length. -/
def State.finishAlu (s : State) (r : Reg) (out : Word × BitVec 3) (length : Nat) : State :=
  ((s.writeGr r out.1).setFr out.2).advance length

/-- R105, memory form: `b` is the word at the effective address; two words. Both operands are read
before anything is written. -/
def aluMemory (f : Alu) (gr xr : Field) (adr : Word) (s : State) : Result :=
  withRegister gr s fun r =>
    .next (s.finishAlu r (f (s.readGr r) (s.readMem (effectiveAddress s xr adr))) 2)

/-- R105, register form: `b` is `GR[r2]`; one word. -/
def aluRegister (f : Alu) (r1 r2 : Field) (s : State) : Result :=
  withRegister r1 s fun r =>
    withRegister r2 s fun q => .next (s.finishAlu r (f (s.readGr r) (s.readGr q)) 1)

/-- R109, memory form of a compare: FR and PR are the only effects. -/
def compareMemory (f : Word → Word → BitVec 3) (gr xr : Field) (adr : Word) (s : State) : Result :=
  withRegister gr s fun r =>
    .next ((s.setFr (f (s.readGr r) (s.readMem (effectiveAddress s xr adr)))).advance 2)

/-- R109, register form of a compare. -/
def compareRegister (f : Word → Word → BitVec 3) (r1 r2 : Field) (s : State) : Result :=
  withRegister r1 s fun r =>
    withRegister r2 s fun q => .next ((s.setFr (f (s.readGr r) (s.readGr q))).advance 1)

/-- R135: a shift's count is the effective address itself, an unsigned number of any size. -/
def shiftBy (f : Word → Nat → Word × BitVec 3) (gr xr : Field) (adr : Word) (s : State) : Result :=
  withRegister gr s fun r =>
    .next (s.finishAlu r (f (s.readGr r) (effectiveAddress s xr adr).toNat) 2)

/-- R148: a jump goes to the effective address when its condition holds and past its two words
otherwise. -/
def jumpWhen (taken : Bool) (xr : Field) (adr : Word) (s : State) : Result :=
  .next (if taken then s.setPr (effectiveAddress s xr adr) else s.advance 2)

end Sys2Proof.Machine
end

