-- ==== Sys2Proof/Machine/Arith.lean ====
section
/-! DEFINITION. Arithmetic, logical and compare instructions (41_arith_logic.md): each operation once, and
each instruction's two forms over it. -/

namespace Sys2Proof.Machine

/-! ## The operations -/

/-- R106: the wrapped signed result and its flags. -/
def signedResult (x : Int) : Word × BitVec 3 := (wrap x, frOf (signedOverflow x) (wrap x))

/-- R107: the wrapped unsigned result and its flags. -/
def unsignedResult (x : Int) : Word × BitVec 3 := (wrap x, frOf (unsignedOverflow x) (wrap x))

/-- R108: a bitwise result; OF = 0. -/
def logicResult (v : Word) : Word × BitVec 3 := (v, frOf false v)

/-- R109: the flags of a saturated difference; OF = 0. -/
def compareResult (d : Int) : BitVec 3 := frOf false (wrap (saturate d))

/-- R106 `x = s(a) + s(b)`. -/
def aluAdda (a b : Word) : Word × BitVec 3 := signedResult (signed a + signed b)
/-- R106 `x = s(a) - s(b)`. -/
def aluSuba (a b : Word) : Word × BitVec 3 := signedResult (signed a - signed b)
/-- R107 `x = u(a) + u(b)`. -/
def aluAddl (a b : Word) : Word × BitVec 3 := unsignedResult (unsigned a + unsigned b)
/-- R107 `x = u(a) - u(b)`. -/
def aluSubl (a b : Word) : Word × BitVec 3 := unsignedResult (unsigned a - unsigned b)
/-- R108, bitwise AND. -/
def aluAnd (a b : Word) : Word × BitVec 3 := logicResult (a &&& b)
/-- R108, bitwise OR. -/
def aluOr (a b : Word) : Word × BitVec 3 := logicResult (a ||| b)
/-- R108, bitwise XOR. -/
def aluXor (a b : Word) : Word × BitVec 3 := logicResult (a ^^^ b)
/-- R109 `d = s(a) - s(b)`. -/
def cmpCpa (a b : Word) : BitVec 3 := compareResult (signed a - signed b)
/-- R109 `d = u(a) - u(b)`. -/
def cmpCpl (a b : Word) : BitVec 3 := compareResult (unsigned a - unsigned b)

/-! ## The instructions -/

/-- R110 `ADDA r, adr[, x]`. -/
def execAddaMem (gr xr : Field) (adr : Word) (s : State) : Result := aluMemory aluAdda gr xr adr s
/-- R111 `ADDA r1, r2`. -/
def execAddaReg (r1 r2 : Field) (s : State) : Result := aluRegister aluAdda r1 r2 s
/-- R112 `SUBA r, adr[, x]`. -/
def execSubaMem (gr xr : Field) (adr : Word) (s : State) : Result := aluMemory aluSuba gr xr adr s
/-- R113 `SUBA r1, r2`. -/
def execSubaReg (r1 r2 : Field) (s : State) : Result := aluRegister aluSuba r1 r2 s
/-- R114 `ADDL r, adr[, x]`. -/
def execAddlMem (gr xr : Field) (adr : Word) (s : State) : Result := aluMemory aluAddl gr xr adr s
/-- R115 `ADDL r1, r2`. -/
def execAddlReg (r1 r2 : Field) (s : State) : Result := aluRegister aluAddl r1 r2 s
/-- R116 `SUBL r, adr[, x]`. -/
def execSublMem (gr xr : Field) (adr : Word) (s : State) : Result := aluMemory aluSubl gr xr adr s
/-- R117 `SUBL r1, r2`. -/
def execSublReg (r1 r2 : Field) (s : State) : Result := aluRegister aluSubl r1 r2 s
/-- R118 `AND r, adr[, x]`. -/
def execAndMem (gr xr : Field) (adr : Word) (s : State) : Result := aluMemory aluAnd gr xr adr s
/-- R119 `AND r1, r2`. -/
def execAndReg (r1 r2 : Field) (s : State) : Result := aluRegister aluAnd r1 r2 s
/-- R120 `OR r, adr[, x]`. -/
def execOrMem (gr xr : Field) (adr : Word) (s : State) : Result := aluMemory aluOr gr xr adr s
/-- R121 `OR r1, r2`. -/
def execOrReg (r1 r2 : Field) (s : State) : Result := aluRegister aluOr r1 r2 s
/-- R122 `XOR r, adr[, x]`. -/
def execXorMem (gr xr : Field) (adr : Word) (s : State) : Result := aluMemory aluXor gr xr adr s
/-- R123 `XOR r1, r2`. -/
def execXorReg (r1 r2 : Field) (s : State) : Result := aluRegister aluXor r1 r2 s
/-- R124 `CPA r, adr[, x]`. -/
def execCpaMem (gr xr : Field) (adr : Word) (s : State) : Result := compareMemory cmpCpa gr xr adr s
/-- R125 `CPA r1, r2`. -/
def execCpaReg (r1 r2 : Field) (s : State) : Result := compareRegister cmpCpa r1 r2 s
/-- R126 `CPL r, adr[, x]`. -/
def execCplMem (gr xr : Field) (adr : Word) (s : State) : Result := compareMemory cmpCpl gr xr adr s
/-- R127 `CPL r1, r2`. -/
def execCplReg (r1 r2 : Field) (s : State) : Result := compareRegister cmpCpl r1 r2 s

end Sys2Proof.Machine
end

