-- ==== Sys2Proof/Machine/Branch.lean ====
section
/-! DEFINITION. The six jumps (43_branch.md), with the conditions of rule R149. -/

namespace Sys2Proof.Machine

/-- R150 `JMI adr[, x]`: taken when SF = 1. -/
def execJmi (xr : Field) (adr : Word) (s : State) : Result := jumpWhen s.signFlag xr adr s
/-- R151 `JNZ adr[, x]`: taken when ZF = 0. -/
def execJnz (xr : Field) (adr : Word) (s : State) : Result := jumpWhen (!s.zeroFlag) xr adr s
/-- R152 `JZE adr[, x]`: taken when ZF = 1. -/
def execJze (xr : Field) (adr : Word) (s : State) : Result := jumpWhen s.zeroFlag xr adr s
/-- R153 `JUMP adr[, x]`: always taken. -/
def execJump (xr : Field) (adr : Word) (s : State) : Result := jumpWhen true xr adr s
/-- R154 `JPL adr[, x]`: taken when SF = 0 and ZF = 0. -/
def execJpl (xr : Field) (adr : Word) (s : State) : Result :=
  jumpWhen (!s.signFlag && !s.zeroFlag) xr adr s
/-- R155 `JOV adr[, x]`: taken when OF = 1. -/
def execJov (xr : Field) (adr : Word) (s : State) : Result := jumpWhen s.overflowFlag xr adr s

end Sys2Proof.Machine
end

