-- ==== Sys2Proof/Machine/LoadStore.lean ====
section
/-! DEFINITION. Load, store and load-address instructions (40_load_store.md). -/

namespace Sys2Proof.Machine

/-- R100 `LD r, adr[, x]`: `v <- MemRead(eadr, 1); GR[gr] <- v; FR <- flagsOf(v); PR <- wrap(PR + 2)`. -/
def execLdMem (gr xr : Field) (adr : Word) (s : State) : Result :=
  aluMemory (fun _ v => (v, frOf false v)) gr xr adr s

/-- R101 `LD r1, r2`: `v <- GR[r2]; GR[gr] <- v; FR <- flagsOf(v); PR <- wrap(PR + 1)`. -/
def execLdReg (r1 r2 : Field) (s : State) : Result :=
  aluRegister (fun _ v => (v, frOf false v)) r1 r2 s

/-- R102 `ST r, adr[, x]`: `MemWrite(eadr, 1, GR[gr]); PR <- wrap(PR + 2)`. -/
def execSt (gr xr : Field) (adr : Word) (s : State) : Result :=
  withRegister gr s fun r =>
    .next ((s.writeMem (effectiveAddress s xr adr) (s.readGr r)).advance 2)

/-- R103 `LAD r, adr[, x]`: `GR[gr] <- eadr; PR <- wrap(PR + 2)`. -/
def execLad (gr xr : Field) (adr : Word) (s : State) : Result :=
  withRegister gr s fun r => .next ((s.writeGr r (effectiveAddress s xr adr)).advance 2)

end Sys2Proof.Machine
end

