-- ==== Sys2Proof/Machine/Shift.lean ====
section
/-! DEFINITION. The four shifts (42_shift.md). -/

namespace Sys2Proof.Machine

/-- R140: `res <- (v AND 0x8000) OR (wrap(v * 2^n) AND 0x7FFF)`, with the last bit out of bit 14. -/
def shiftSla (v : Word) (n : Nat) : Word × BitVec 3 :=
  let res := (v &&& 0x8000#16) ||| ((v <<< n) &&& 0x7FFF#16)
  (res, frOf (slaOverflow v n) res)

/-- R141: `res <- wrap(floor(s(v) / 2^n))`, copies of bit 15 coming in. -/
def shiftSra (v : Word) (n : Nat) : Word × BitVec 3 :=
  let res := v.sshiftRight n
  (res, frOf (sraOverflow v n) res)

/-- R142: `res <- wrap(v * 2^n)`. -/
def shiftSll (v : Word) (n : Nat) : Word × BitVec 3 :=
  let res := v <<< n
  (res, frOf (sllOverflow v n) res)

/-- R143: `res <- floor(v / 2^n)`. -/
def shiftSrl (v : Word) (n : Nat) : Word × BitVec 3 :=
  let res := v >>> n
  (res, frOf (srlOverflow v n) res)

/-- R140 `SLA r, adr[, x]`. -/
def execSla (gr xr : Field) (adr : Word) (s : State) : Result := shiftBy shiftSla gr xr adr s
/-- R141 `SRA r, adr[, x]`. -/
def execSra (gr xr : Field) (adr : Word) (s : State) : Result := shiftBy shiftSra gr xr adr s
/-- R142 `SLL r, adr[, x]`. -/
def execSll (gr xr : Field) (adr : Word) (s : State) : Result := shiftBy shiftSll gr xr adr s
/-- R143 `SRL r, adr[, x]`. -/
def execSrl (gr xr : Field) (adr : Word) (s : State) : Result := shiftBy shiftSrl gr xr adr s

end Sys2Proof.Machine
end

