-- ==== Sys2Proof/Machine/StackCall.lean ====
section
/-! DEFINITION. Stack, call and return (44_stack_call.md). -/

namespace Sys2Proof.Machine

/-- R160 `PUSH adr[, x]`: the value pushed is the effective address itself. -/
def execPush (xr : Field) (adr : Word) (s : State) : Result :=
  .next ((s.pushWord (effectiveAddress s xr adr)).advance 2)

/-- R161 `POP r`: `GR[gr] <- MemRead(SP, 1); SP <- wrap(SP + 1); PR <- wrap(PR + 1)`. -/
def execPop (gr : Field) (s : State) : Result :=
  withRegister gr s fun r => .next ((s.writeGr r s.topWord).dropWord.advance 1)

/-- R162 `CALL adr[, x]`: push the address of the word after the `CALL`, then go to the target, which
is computed before the push (R82). -/
def execCall (xr : Field) (adr : Word) (s : State) : Result :=
  .next ((s.pushWord (s.pr + 2#16)).setPr (effectiveAddress s xr adr))

/-- R163 `RET`: pop PR; the run ends when the unwrapped `SP + 1` is above `STACK_TOP`, after the writes
of PR and SP. -/
def execRet (s : State) : Result :=
  let popped := (s.setPr s.topWord).dropWord
  .next (if Config.stackTop.toNat < s.sp.toNat + 1 then popped.setStatus .terminated else popped)

end Sys2Proof.Machine
end

