-- ==== Sys2Proof/Machine/System.lean ====
section
/-! DEFINITION. The supervisor call with its two host services, and no-operation (45_system.md). -/

namespace Sys2Proof.Machine

/-- R172 `ServiceIn()`: take one line, keep at most `IN_MAX` bytes, write the length at GR2 first and
then the bytes, one per word, from GR1 on. -/
def State.serviceIn (s : State) : State :=
  let got := s.hostIn
  let kept := got.1.take Config.inMax
  (got.2.writeMem (s.readGr 2) (BitVec.ofNat 16 kept.length)).storeBytes (s.readGr 1) kept

/-- R173 `ServiceOut()`: send the low bytes of the counted words from GR1 on, and a newline. -/
def State.serviceOut (s : State) : State :=
  s.hostOut (s.loadBytes (s.readGr 1) (s.readMem (s.readGr 2)).toNat ++ [Config.newline])

/-- R171: the service table, with two entries; any other number selects nothing. -/
def State.service (s : State) (number : Word) : State :=
  if number = Config.sysIn then s.serviceIn
  else if number = Config.sysOut then s.serviceOut
  else s

/-- R170 `SVC adr[, x]`: run the service the effective address selects; `PR <- wrap(PR + 2)`. -/
def execSvc (xr : Field) (adr : Word) (s : State) : Result :=
  .next ((s.service (effectiveAddress s xr adr)).advance 2)

/-- R175 `NOP`: `PR <- wrap(PR + 1)`. -/
def execNop (s : State) : Result := .next (s.advance 1)

end Sys2Proof.Machine
end

