-- ==== Sys2Proof/Machine/Dispatch.lean ====
section
/-! DEFINITION. The dispatch of 30_encoding.md rule R82: one arm for each instruction of the opcode map,
each a direct call of its meaning. -/

namespace Sys2Proof.Machine

-- R82 "execute the rule of op with (gr, xr, adr, eadr)"
def exec (i : Instr) (s : State) : Host.Outcome State Fault Refusal :=
  match i with
  | .nop => Sys2Proof.Machine.execNop s
  | .ldMem gr xr adr => Sys2Proof.Machine.execLdMem gr xr adr s
  | .st gr xr adr => Sys2Proof.Machine.execSt gr xr adr s
  | .lad gr xr adr => Sys2Proof.Machine.execLad gr xr adr s
  | .ldReg r1 r2 => Sys2Proof.Machine.execLdReg r1 r2 s
  | .addaMem gr xr adr => Sys2Proof.Machine.execAddaMem gr xr adr s
  | .subaMem gr xr adr => Sys2Proof.Machine.execSubaMem gr xr adr s
  | .addlMem gr xr adr => Sys2Proof.Machine.execAddlMem gr xr adr s
  | .sublMem gr xr adr => Sys2Proof.Machine.execSublMem gr xr adr s
  | .addaReg r1 r2 => Sys2Proof.Machine.execAddaReg r1 r2 s
  | .subaReg r1 r2 => Sys2Proof.Machine.execSubaReg r1 r2 s
  | .addlReg r1 r2 => Sys2Proof.Machine.execAddlReg r1 r2 s
  | .sublReg r1 r2 => Sys2Proof.Machine.execSublReg r1 r2 s
  | .andMem gr xr adr => Sys2Proof.Machine.execAndMem gr xr adr s
  | .orMem gr xr adr => Sys2Proof.Machine.execOrMem gr xr adr s
  | .xorMem gr xr adr => Sys2Proof.Machine.execXorMem gr xr adr s
  | .andReg r1 r2 => Sys2Proof.Machine.execAndReg r1 r2 s
  | .orReg r1 r2 => Sys2Proof.Machine.execOrReg r1 r2 s
  | .xorReg r1 r2 => Sys2Proof.Machine.execXorReg r1 r2 s
  | .cpaMem gr xr adr => Sys2Proof.Machine.execCpaMem gr xr adr s
  | .cplMem gr xr adr => Sys2Proof.Machine.execCplMem gr xr adr s
  | .cpaReg r1 r2 => Sys2Proof.Machine.execCpaReg r1 r2 s
  | .cplReg r1 r2 => Sys2Proof.Machine.execCplReg r1 r2 s
  | .sla gr xr adr => Sys2Proof.Machine.execSla gr xr adr s
  | .sra gr xr adr => Sys2Proof.Machine.execSra gr xr adr s
  | .sll gr xr adr => Sys2Proof.Machine.execSll gr xr adr s
  | .srl gr xr adr => Sys2Proof.Machine.execSrl gr xr adr s
  | .jmi xr adr => Sys2Proof.Machine.execJmi xr adr s
  | .jnz xr adr => Sys2Proof.Machine.execJnz xr adr s
  | .jze xr adr => Sys2Proof.Machine.execJze xr adr s
  | .jump xr adr => Sys2Proof.Machine.execJump xr adr s
  | .jpl xr adr => Sys2Proof.Machine.execJpl xr adr s
  | .jov xr adr => Sys2Proof.Machine.execJov xr adr s
  | .push xr adr => Sys2Proof.Machine.execPush xr adr s
  | .pop gr => Sys2Proof.Machine.execPop gr s
  | .call xr adr => Sys2Proof.Machine.execCall xr adr s
  | .ret => Sys2Proof.Machine.execRet s
  | .svc xr adr => Sys2Proof.Machine.execSvc xr adr s

end Sys2Proof.Machine
end

