-- ==== Sys2Proof/Machine/Step.lean ====
section
/-! DEFINITION. One step of the machine (30_encoding.md rule R82), and the host's way of placing one
instruction where the step fetches. -/

namespace Sys2Proof.Machine

/-- R82, R9: one step executes exactly one instruction or stops the machine. It is taken only in
`running` (R35). The two words are read before decoding (R57); a word with an illegal `op` raises
`IllegalInstruction` (R80), and the register-field checks of R82 are each meaning's first act. -/
def step (s : State) : Host.Outcome State Fault Refusal :=
  match s.status with
  | .running =>
    match decode s.fetch.1 s.fetch.2 with
    | .ok i => exec i s
    | .error _ => illegalInstruction s
  | final => .fault (.notRunning final)

/-- The state with the instruction of table bits `w` (the host's numbering: bits 15..0 the first word,
bits 31..16 the second, zero from `nbits` up) stored at PR and after it, and the machine running
(log entry 7). -/
def State.withFetchWord (s : State) (nbits w : Nat) : State :=
  ((s.writeMem s.pr (BitVec.ofNat 16 (w % 2 ^ nbits))).writeMem (s.pr + 1#16)
    (BitVec.ofNat 16 (w % 2 ^ nbits / 65536))).setStatus .running

end Sys2Proof.Machine
end

