-- ==== Sys2Proof/Machine/Assembler.lean ====
section
/-! DEFINITION. What the assembler fixes of the machine's input (00_scope.md rule R3): the operand forms of
a source line, the words they assemble to, the data words of `DC`, `DS` and literals, and the macros
(30_encoding.md rules R73 and R85 to R96). Labels and pool addresses are given by the caller, which is
Source.lean for a whole source text. -/

namespace Sys2Proof.Machine

/-- The errors of the assembler that the operand rules name. -/
inductive AsmError where
  /-- R86 "invalid register" -/
  | invalidRegister
  /-- R86 "invalid operand arity" -/
  | invalidArity
  /-- R91 "Can't use GR0 as an index register" -/
  | indexByGr0
  /-- R87 "Undefined symbol" -/
  | undefinedSymbol
  /-- R90 "Invalid literal" -/
  | invalidLiteral
  /-- 95_test_vectors.md S6 "already defined": a label twice in one block -/
  | alreadyDefined
  /-- an operand that is none of the forms of R87 or R89 (log entry 12) -/
  | invalidOperand
  /-- R85: text at column 1 that is no label (log entry 12) -/
  | invalidLabel
  /-- R75, R85: a mnemonic that is missing, not upper-case letters, or unknown (log entry 12) -/
  | invalidMnemonic
  /-- a line outside a `START` block (log entry 24) -/
  | outsideBlock
  /-- a block without its `END` (log entry 24) -/
  | missingEnd
deriving DecidableEq, Repr

/-- R87: what an `adr` operand can be. -/
inductive AdrOperand where
  | number (value : Int)
  | label (name : List Char)
  | literal (text : List Char)
deriving DecidableEq, Repr

/-- The parts of a source line (R85). -/
structure SourceLine where
  label : Option (List Char)
  mnemonic : List Char
  operands : List (List Char)
deriving DecidableEq, Repr

/-! ## Characters and numbers -/

def isUpper (c : Char) : Bool := decide (65 ≤ c.toNat ∧ c.toNat ≤ 90)
def isLower (c : Char) : Bool := decide (97 ≤ c.toNat ∧ c.toNat ≤ 122)
def isDigit (c : Char) : Bool := decide (48 ≤ c.toNat ∧ c.toNat ≤ 57)
/-- Blank or tab (log entry 12). -/
def isBlank (c : Char) : Bool := c == ' ' || c == '\t'
/-- R85: the single quote. -/
def isQuote (c : Char) : Bool := c == '\''

/-- The value of a hexadecimal digit, case-insensitive (R87). -/
def hexValue (c : Char) : Option Nat :=
  if isDigit c then some (c.toNat - 48)
  else if 65 ≤ c.toNat ∧ c.toNat ≤ 70 then some (c.toNat - 55)
  else if 97 ≤ c.toNat ∧ c.toNat ≤ 102 then some (c.toNat - 87)
  else none

/-- R87 `#hhhh`: exactly four hexadecimal digits. -/
def parseHex : List Char → Option Int
  | ['#', a, b, c, d] =>
    match hexValue a, hexValue b, hexValue c, hexValue d with
    | some w, some x, some y, some z => some (((w * 16 + x) * 16 + y) * 16 + z : Nat)
    | _, _, _, _ => none
  | _ => none

/-- The value of a list of decimal digits after a prefix of value `acc`. -/
def digitsValue : Nat → List Char → Option Nat
  | acc, [] => some acc
  | acc, c :: cs => if isDigit c then digitsValue (acc * 10 + (c.toNat - 48)) cs else none

/-- R87 "a signed decimal integer" (log entry 12: the sign is an optional minus). -/
def parseDecimal : List Char → Option Int
  | [] => none
  | '-' :: c :: cs => (digitsValue 0 (c :: cs)).map fun n => -(n : Int)
  | c :: cs => (digitsValue 0 (c :: cs)).map fun n => (n : Int)

/-- R87, R89: a hexadecimal or decimal number. -/
def parseNumber (t : List Char) : Option Int :=
  match parseHex t with
  | some v => some v
  | none => parseDecimal t

/-- R85: a label matches `[A-Z][0-9A-Za-z]{0,7}`. -/
def isLabel : List Char → Bool
  | [] => false
  | c :: cs => isUpper c && decide (cs.length ≤ 7) && cs.all fun d => isDigit d || isUpper d || isLower d

/-- R86: registers are spelled `GR0` to `GR7`. -/
def parseRegister : List Char → Option Field
  | ['G', 'R', d] => if 48 ≤ d.toNat ∧ d.toNat ≤ 55 then some (BitVec.ofNat 4 (d.toNat - 48)) else none
  | _ => none

/-! ## Lines -/

/-- R85: a comment begins with `;` outside single quotes. -/
def stripComment : Bool → List Char → List Char
  | _, [] => []
  | quoted, c :: cs =>
    if isQuote c then c :: stripComment (!quoted) cs
    else if c == ';' && !quoted then []
    else c :: stripComment quoted cs

/-- R85: cut at top-level commas; a comma inside single quotes is no separator. -/
def splitCommas : Bool → List Char → List (List Char)
  | _, [] => [[]]
  | quoted, c :: cs =>
    if c == ',' && !quoted then [] :: splitCommas quoted cs
    else
      match splitCommas (if isQuote c then !quoted else quoted) cs with
      | [] => [[c]]
      | part :: parts => (c :: part) :: parts

/-- Drop the blanks at both ends (log entry 12). -/
def trimBlanks (t : List Char) : List Char := ((t.dropWhile isBlank).reverse.dropWhile isBlank).reverse

/-- R85: the operands of an operand string, which may be empty. -/
def splitOperands (t : List Char) : List (List Char) :=
  match trimBlanks t with
  | [] => []
  | c :: cs => (splitCommas false (c :: cs)).map trimBlanks

/-- R85: a line is an optional label that starts at column 1, a mnemonic of upper-case letters and an
operand string. A blank or comment line answers `none`; other text without a mnemonic is an error (log
entry 12). -/
def parseLine (line : List Char) : Except AsmError (Option SourceLine) :=
  let text := stripComment false line
  let label := text.takeWhile fun c => !isBlank c
  let rest := (text.dropWhile fun c => !isBlank c).dropWhile isBlank
  let mnemonic := rest.takeWhile fun c => !isBlank c
  if label.isEmpty && mnemonic.isEmpty then .ok none
  else if !label.isEmpty && !isLabel label then .error .invalidLabel
  else if mnemonic.isEmpty || !mnemonic.all isUpper then .error .invalidMnemonic
  else
    .ok (some ⟨if label.isEmpty then none else some label, mnemonic,
      splitOperands (rest.dropWhile fun c => !isBlank c)⟩)

/-! ## Quoted strings, literals and data -/

/-- R85: the characters after an opening quote up to the closing one, which ends the text; `''` stands
for one quote. -/
def quotedBody : List Char → Option (List Char)
  | [] => none
  | ['\''] => some []
  | '\'' :: '\'' :: cs => (quotedBody cs).map fun t => '\'' :: t
  | '\'' :: _ => none
  | c :: cs => (quotedBody cs).map fun t => c :: t

/-- R89: a character is its byte, taken mod 256, zero-extended. The spec gives no encoding of source text:
that a character is one byte, its code mod 256, is the model's choice (log entry 23). -/
def charWord (c : Char) : Word := zext16 (BitVec.ofNat 8 c.toNat)

/-- R85, R89: the words of a quoted string. -/
def quotedWords : List Char → Option (List Word)
  | '\'' :: cs => (quotedBody cs).map fun t => t.map charWord
  | _ => none

/-- R90: the words of a literal `=<rest>`, given `<rest>`. -/
def literalWords (rest : List Char) : Except AsmError (List Word) :=
  match quotedWords rest with
  | some ws => .ok ws
  | none =>
    match parseNumber rest with
    | some v => .ok [wrap v]
    | none => .error .invalidLiteral

/-- R90: two textually identical literals of one block share one pool entry. The spec does not say which use
fixes the entry's place in the pool: that it is the first is the model's choice (log entry 27). -/
def poolEntries : List (List Char) → List (List Char)
  | [] => []
  | t :: ts => t :: (poolEntries ts).filter fun u => u != t

/-- The words of the parts of a list, one after the other; the first error ends it. -/
def concatWords {α : Type} (words : α → Except AsmError (List Word)) : List α → Except AsmError (List Word)
  | [] => .ok []
  | x :: xs => do
    let first ← words x
    let rest ← concatWords words xs
    return first ++ rest

/-- R89: `END` pops the pooled literals in LIFO order. -/
def poolOrder (literals : List (List Char)) : List (List Char) := (poolEntries literals).reverse

/-- R89: the words of a literal pool. -/
def poolWords (literals : List (List Char)) : Except AsmError (List Word) :=
  concatWords literalWords (poolOrder literals)

/-- R89 `DC`: the words of one value; `symbols` gives the labels' values. -/
def dcWords (symbols : List Char → Option Word) (value : List Char) : Except AsmError (List Word) :=
  match quotedWords value with
  | some ws => .ok ws
  | none =>
    match parseNumber value with
    | some v => .ok [wrap v]
    | none =>
      if isLabel value then
        match symbols value with
        | some w => .ok [w]
        | none => .error .undefinedSymbol
      else .error .invalidOperand

/-- R89 `DS N`: N zero words. -/
def dsWords (n : Nat) : List Word := List.replicate n 0x0000#16

/-! ## Instructions -/

/-- R87: read an `adr` operand. -/
def parseAdr : List Char → Option AdrOperand
  | '=' :: rest => some (.literal rest)
  | t =>
    match parseNumber t with
    | some v => some (.number v)
    | none => if isLabel t then some (.label t) else none

/-- R87, R74: the word an `adr` operand stands for; numbers are masked to 16 bits. `symbols` and `pool`
give the labels' values and the addresses of the pooled literals. -/
def resolveAdr (symbols pool : List Char → Option Word) (t : List Char) : Except AsmError Word :=
  match parseAdr t with
  | some (.number v) => .ok (wrap v)
  | some (.label name) =>
    match symbols name with
    | some w => .ok w
    | none => .error .undefinedSymbol
  | some (.literal rest) =>
    match pool rest with
    | some w => .ok w
    | none => .error .undefinedSymbol
  | none => .error .invalidOperand

/-- R87: a `CALL` operand resolves to the label in its own `START` block, then to the entry label of the
routine of that name; this is the only fallback. -/
def callSymbols (ownBlock routines : List Char → Option Word) (name : List Char) : Option Word :=
  match ownBlock name with
  | some w => some w
  | none => routines name

/-- R86: a register operand. -/
def registerOperand (t : List Char) : Except AsmError Field :=
  match parseRegister t with
  | some f => .ok f
  | none => .error .invalidRegister

/-- R86, R91: an index operand; `GR0` and `0` are rejected. -/
def indexOperand (t : List Char) : Except AsmError Field :=
  if t = ['G', 'R', '0'] ∨ t = ['0'] then .error .indexByGr0 else registerOperand t

/-- R75: the instruction of a mnemonic that takes `GR, adr[, XR]` (formats `op1` and `op5` memory). -/
def memoryForm : Mnemonic → Option (Field → Field → Word → Instr)
  | .LD => some .ldMem | .ST => some .st | .LAD => some .lad
  | .ADDA => some .addaMem | .SUBA => some .subaMem | .ADDL => some .addlMem | .SUBL => some .sublMem
  | .AND => some .andMem | .OR => some .orMem | .XOR => some .xorMem
  | .CPA => some .cpaMem | .CPL => some .cplMem
  | .SLA => some .sla | .SRA => some .sra | .SLL => some .sll | .SRL => some .srl
  | _ => none

/-- R75: the instruction of a mnemonic that takes `GR, GR` (format `op5` register). -/
def registerForm : Mnemonic → Option (Field → Field → Instr)
  | .LD => some .ldReg
  | .ADDA => some .addaReg | .SUBA => some .subaReg | .ADDL => some .addlReg | .SUBL => some .sublReg
  | .AND => some .andReg | .OR => some .orReg | .XOR => some .xorReg
  | .CPA => some .cpaReg | .CPL => some .cplReg
  | _ => none

/-- R75: the instruction of a mnemonic that takes `adr[, XR]` (format `op2`). -/
def addressForm : Mnemonic → Option (Field → Word → Instr)
  | .JMI => some .jmi | .JNZ => some .jnz | .JZE => some .jze | .JUMP => some .jump
  | .JPL => some .jpl | .JOV => some .jov
  | .PUSH => some .push | .CALL => some .call | .SVC => some .svc
  | _ => none

/-- R73, R86: an instruction with a register and an address operand. -/
def assembleMemory (make : Field → Field → Word → Instr) (symbols pool : List Char → Option Word) :
    List (List Char) → Except AsmError Instr
  | [r, a] => do return make (← registerOperand r) 0#4 (← resolveAdr symbols pool a)
  | [r, a, x] => do
    return make (← registerOperand r) (← indexOperand x) (← resolveAdr symbols pool a)
  | _ => .error .invalidArity

/-- R73, R86: an instruction with an address operand alone. -/
def assembleAddress (make : Field → Word → Instr) (symbols pool : List Char → Option Word) :
    List (List Char) → Except AsmError Instr
  | [a] => do return make 0#4 (← resolveAdr symbols pool a)
  | [a, x] => do return make (← indexOperand x) (← resolveAdr symbols pool a)
  | _ => .error .invalidArity

/-- R86, R88: the instruction of a mnemonic and its operands. For a mnemonic with a register form, that
form is chosen exactly when the second operand is a register name. -/
def assemble (symbols pool : List Char → Option Word) (m : Mnemonic) (operands : List (List Char)) :
    Except AsmError Instr :=
  match m with
  | .NOP => if operands.isEmpty then .ok .nop else .error .invalidArity
  | .RET => if operands.isEmpty then .ok .ret else .error .invalidArity
  | .POP =>
    match operands with
    | [r] => do return .pop (← registerOperand r)
    | _ => .error .invalidArity
  | _ =>
    match addressForm m with
    | some make => assembleAddress make symbols pool operands
    | none =>
      match memoryForm m with
      | none => .error .invalidOperand
      | some makeMemory =>
        match registerForm m, operands.map parseRegister with
        | some makeRegister, [_, some r2] => do
          return makeRegister (← registerOperand (operands.headD [])) r2
        | some _, _ :: some _ :: _ => .error .invalidArity
        | _, _ => assembleMemory makeMemory symbols pool operands

/-- R96: the entry point: the address of the label that the first `START` names, or zero. -/
def entryPoint (symbols : List Char → Option Word) : Option (List Char) → Except AsmError Word
  | none => .ok 0x0000#16
  | some name =>
    match symbols name with
    | some w => .ok w
    | none => .error .undefinedSymbol

/-! ## Macros -/

/-- R92, R93: the seven instructions both `IN` and `OUT` expand to, for the service `number`. -/
def serviceMacro (number buf len : Word) : List Instr :=
  [.push 1#4 0x0000#16, .push 2#4 0x0000#16, .lad 1#4 0#4 buf, .lad 2#4 0#4 len, .svc 0#4 number,
   .pop 2#4, .pop 1#4]

/-- R92 `IN buf, len`. -/
def macroIn (buf len : Word) : List Instr := serviceMacro Config.sysIn buf len

/-- R93 `OUT buf, len`. -/
def macroOut (buf len : Word) : List Instr := serviceMacro Config.sysOut buf len

/-- R94 `RPUSH`: seven `PUSH 0, GRn` for n = 1..7. -/
def macroRpush : List Instr := [1#4, 2#4, 3#4, 4#4, 5#4, 6#4, 7#4].map fun n => .push n 0x0000#16

/-- R95 `RPOP`: seven `POP GRn` for n = 7..1. -/
def macroRpop : List Instr := [7#4, 6#4, 5#4, 4#4, 3#4, 2#4, 1#4].map .pop

/-- The words of a list of instructions, one after the other. -/
def encodeAll (is : List Instr) : List Word := is.flatMap encode

end Sys2Proof.Machine
end

