-- ==== Sys2Proof/Machine/ObjectFile.lean ====
section
/-! DEFINITION. The object-file codec and the loader (70_reset_and_hazards.md rules R230 to R243). -/

namespace Sys2Proof.Machine

/-- Why the codec rejects a byte string (R235). -/
inductive LoadReject where
  | badMagic
  | shortHeader
  | oddLength
deriving DecidableEq, Repr

/-- R240: what a load does. -/
inductive LoadResult where
  /-- the machine is reset with the image (R241) -/
  | loaded (s : State)
  /-- a warning; the machine state is left as it was -/
  | refused (reason : LoadReject) (s : State)
  /-- the fatal error "Out of memory": the simulator stops -/
  | outOfMemory
deriving DecidableEq, Repr

/-- R232 `w[15:8]`. -/
def highByte (w : Word) : Byte := w.extractLsb' 8 8

/-- R232 `w[7:0]`. -/
def lowByte (w : Word) : Byte := w.extractLsb' 0 8

/-- R232: a word is serialised high byte first. -/
def wordBytes (w : Word) : List Byte := [highByte w, lowByte w]

/-- R235 `f[i] * 256 + f[i+1]`: the word of a high byte and a low byte. -/
def joinBytes (high low : Byte) : Word := (high.setWidth 16 <<< 8) ||| low.setWidth 16

/-- R233: the object file of an entry point and an image. -/
def encodeObject (entry : Word) (image : List Word) : List Byte :=
  Config.magic ++ wordBytes entry ++ List.replicate 10 0x00#8 ++ image.flatMap wordBytes

/-- R235: the words of the bytes after the header. -/
def imageWords : List Byte → List Word
  | high :: low :: rest => joinBytes high low :: imageWords rest
  | _ => []

/-- R235: the decoder, total on any byte string. Bytes 6..15 are ignored. -/
def decodeObject (f : List Byte) : Except LoadReject (Word × List Word) :=
  if f.length < 4 ∨ f.take 4 ≠ Config.magic then .error .badMagic
  else if f.length < Config.headerBytes then .error .shortHeader
  else if (f.length - Config.headerBytes) % 2 = 1 then .error .oddLength
  else .ok (joinBytes (f.getD 4 0#8) (f.getD 5 0#8), imageWords (f.drop Config.headerBytes))

/-- R241: the memory that holds an image from an address on and zero elsewhere, in canonical form. -/
def imageMemory : Nat → List Word → Memory
  | _, [] => []
  | a, w :: ws => Memory.cell a w ++ imageMemory (a + 1) ws

/-- R241: load is the machine's reset. It sets the whole machine state; the host's streams are not part
of it. -/
def State.loadImage (s : State) (entry : Word) (image : List Word) : State :=
  { s with
    gr := Vector.replicate 8 Config.initGr
    pr := entry
    sp := Config.stackTop
    fr := Config.initFr
    mem := imageMemory 0 image
    status := .running }

/-- R240, R241: load an object file. -/
def State.load (s : State) (f : List Byte) : LoadResult :=
  match decodeObject f with
  | .error reason => .refused reason s
  | .ok (entry, image) =>
    if Config.maxImageWords < image.length then .outOfMemory else .loaded (s.loadImage entry image)

end Sys2Proof.Machine
end

