-- ==== Sys2Proof/Machine/Source.lean ====
section
/-! DEFINITION. From source lines to an object file: the directives, the word layout and the image
(30_encoding.md rules R87, R89, R90 and R96, 70_reset_and_hazards.md rule R234). What R89 leaves open of
blocks and routine names is settled in log entry 24. -/

namespace Sys2Proof.Machine

/-! ## Names of operations -/

/-- R89, R92 to R95: the names of a source line that are no instruction. -/
inductive Directive where
  | START | END | DS | DC | IN | OUT | RPUSH | RPOP
deriving DecidableEq, Repr

/-- The letters of a directive. -/
def Directive.letters : Directive → List Char
  | .START => ['S', 'T', 'A', 'R', 'T']
  | .END => ['E', 'N', 'D']
  | .DS => ['D', 'S']
  | .DC => ['D', 'C']
  | .IN => ['I', 'N']
  | .OUT => ['O', 'U', 'T']
  | .RPUSH => ['R', 'P', 'U', 'S', 'H']
  | .RPOP => ['R', 'P', 'O', 'P']

/-- The directive a line's mnemonic text spells. -/
def parseDirective (text : List Char) : Option Directive :=
  [Directive.START, .END, .DS, .DC, .IN, .OUT, .RPUSH, .RPOP].find? fun d => d.letters == text

/-- R75: the instruction mnemonic a line's mnemonic text spells. -/
def parseMnemonic (text : List Char) : Option Mnemonic :=
  (opcodeMap.map OpRow.mnemonic).find? fun m => m.letters == text

/-! ## Statements -/

/-- What a source line says, its label apart. -/
inductive Statement where
  /-- `START`, with the label its operand names -/
  | start (entry : Option (List Char))
  /-- `END` -/
  | finish
  /-- `DS N` -/
  | space (words : Nat)
  /-- `DC`, with its values -/
  | data (values : List (List Char))
  /-- `IN buf, len` and `OUT buf, len`, by the service number -/
  | service (number : Word) (buf len : List Char)
  /-- `RPUSH` -/
  | pushAll
  /-- `RPOP` -/
  | popAll
  | instruction (m : Mnemonic) (operands : List (List Char))
deriving DecidableEq, Repr

/-- R89, R92 to R95: a directive with its operands (the count of `DS` is a number of R87 that is not
negative, log entry 12). -/
def directiveStatement : Directive → List (List Char) → Except AsmError Statement
  | .START, [] => .ok (.start none)
  | .START, [l] => if isLabel l then .ok (.start (some l)) else .error .invalidOperand
  | .END, [] => .ok .finish
  | .DS, [n] =>
    match parseNumber n with
    | some v => if 0 ≤ v then .ok (.space v.toNat) else .error .invalidOperand
    | none => .error .invalidOperand
  | .DC, v :: vs => .ok (.data (v :: vs))
  | .IN, [buf, len] => .ok (.service Config.sysIn buf len)
  | .OUT, [buf, len] => .ok (.service Config.sysOut buf len)
  | .RPUSH, [] => .ok .pushAll
  | .RPOP, [] => .ok .popAll
  | _, _ => .error .invalidArity

/-- R75, R89: the statement of a line. -/
def parseStatement (l : SourceLine) : Except AsmError Statement :=
  match parseDirective l.mnemonic with
  | some d => directiveStatement d l.operands
  | none =>
    match parseMnemonic l.mnemonic with
    | some m => .ok (.instruction m l.operands)
    | none => .error .invalidMnemonic

/-- The words a statement emits (R73, R89, R92 to R95). `symbols` gives the labels of the block,
`routines` the entry labels of the routines (for `CALL`, R87) and `pool` the addresses of the literals. -/
def Statement.emit (symbols routines pool : List Char → Option Word) :
    Statement → Except AsmError (List Word)
  | .start _ | .finish => .ok []
  | .space n => .ok (dsWords n)
  | .data values => concatWords (dcWords symbols) values
  | .service number buf len => do
    let b ← resolveAdr symbols pool buf
    let l ← resolveAdr symbols pool len
    return encodeAll (serviceMacro number b l)
  | .pushAll => .ok (encodeAll macroRpush)
  | .popAll => .ok (encodeAll macroRpop)
  | .instruction m operands =>
    (assemble (if m = .CALL then callSymbols symbols routines else symbols) pool m operands).map encode

/-- Every name has the value zero: enough to count words, which no value changes. -/
def everyName (_ : List Char) : Option Word := some 0x0000#16

/-- R89: by how much a statement advances the address counter: the number of words it emits. -/
def Statement.size (st : Statement) : Except AsmError Nat :=
  (st.emit everyName everyName everyName).map List.length

/-- R87: the text of a literal operand, without its `=`. -/
def literalText : List Char → Option (List Char)
  | '=' :: rest => some rest
  | _ => none

/-- R90: the literals a statement pools, in source order. -/
def Statement.literals : Statement → List (List Char)
  | .instruction _ operands => operands.filterMap literalText
  | .service _ buf len => [buf, len].filterMap literalText
  | .start _ | .finish | .space _ | .data _ | .pushAll | .popAll => []

/-! ## Blocks -/

/-- A line that is not blank. -/
structure Line where
  label : Option (List Char)
  statement : Statement
deriving DecidableEq, Repr

/-- R89: a block from `START` to `END`: the label of `START`, its operand, and the lines after it, `END`
among them. -/
structure Block where
  name : Option (List Char)
  entry : Option (List Char)
  lines : List Line
deriving DecidableEq, Repr

/-- The lines of a source text. -/
def parseLines : List (List Char) → Except AsmError (List Line)
  | [] => .ok []
  | text :: texts => do
    let here ← parseLine text
    let rest ← parseLines texts
    match here with
    | none => return rest
    | some l => return ⟨l.label, ← parseStatement l⟩ :: rest

/-- The block with one more line. -/
def Block.addLine (b : Block) (l : Line) : Block := { b with lines := b.lines ++ [l] }

/-- R89: cut the lines into blocks. The first argument is the block that is open. -/
def splitBlocks : Option Block → List Line → Except AsmError (List Block)
  | none, [] => .ok []
  | some _, [] => .error .missingEnd
  | none, l :: ls =>
    match l.statement with
    | .start entry => splitBlocks (some ⟨l.label, entry, []⟩) ls
    | _ => .error .outsideBlock
  | some b, l :: ls =>
    match l.statement with
    | .start _ => .error .missingEnd
    | .finish => (splitBlocks none ls).map fun bs => b.addLine l :: bs
    | _ => splitBlocks (some (b.addLine l)) ls

/-- R90: the literals of a block. -/
def Block.literals (b : Block) : List (List Char) := b.lines.flatMap fun l => l.statement.literals

/-! ## Addresses -/

/-- Names with their addresses. -/
abbrev NameTable := List (List Char × Word)

/-- The address of a name that has exactly one (R87: an ambiguous name is no name). -/
def NameTable.find (t : NameTable) (name : List Char) : Option Word :=
  match t.filter fun e => e.1 == name with
  | [e] => some e.2
  | _ => none

/-- A label, if any, at an address. -/
def nameAt (label : Option (List Char)) (a : Nat) : NameTable :=
  match label with
  | some l => [(l, BitVec.ofNat 16 a)]
  | none => []

/-- R89: the addresses of the labels of lines laid out from `a`, and the address after the last word. -/
def placeLines : Nat → List Line → Except AsmError (NameTable × Nat)
  | a, [] => .ok ([], a)
  | a, l :: ls => do
    let n ← l.statement.size
    let (names, stop) ← placeLines (a + n) ls
    return (nameAt l.label a ++ names, stop)

/-- R87, R89: the addresses of the literals laid out from `a`, and the address after the last word. -/
def placePool : Nat → List (List Char) → Except AsmError (NameTable × Nat)
  | a, [] => .ok ([], a)
  | a, t :: ts => do
    let ws ← literalWords t
    let (names, stop) ← placePool (a + ws.length) ts
    return ((t, BitVec.ofNat 16 a) :: names, stop)

/-- A block with its addresses: of its labels, of its literals, of its first word, of its pool and of the
word after it. -/
structure Placed where
  block : Block
  first : Nat
  symbols : NameTable
  poolFirst : Nat
  pool : NameTable
  stop : Nat
deriving DecidableEq, Repr

/-- R89: lay a block out from `a`, its literal pool after its last word. A label stands once in its
block; the label of `START` is the block's first word (log entry 24). -/
def Block.place (b : Block) (a : Nat) : Except AsmError Placed := do
  let (names, poolFirst) ← placeLines a b.lines
  let (pool, stop) ← placePool poolFirst (poolOrder b.literals)
  let symbols := nameAt b.name a ++ names
  if (symbols.map Prod.fst).Nodup then return ⟨b, a, symbols, poolFirst, pool, stop⟩
  else .error .alreadyDefined

/-- R89: blocks follow one another. -/
def placeBlocks : Nat → List Block → Except AsmError (List Placed)
  | _, [] => .ok []
  | a, b :: bs => do
    let p ← b.place a
    let ps ← placeBlocks p.stop bs
    return p :: ps

/-- R87: the entry labels of the routines. A routine is entered at the label its `START` names, or at its
first word (log entry 24). -/
def routineTable : List Placed → Except AsmError NameTable
  | [] => .ok []
  | p :: ps => do
    let entry ←
      match p.block.entry with
      | some l => entryPoint p.symbols.find (some l)
      | none => .ok (BitVec.ofNat 16 p.first)
    let rest ← routineTable ps
    match p.block.name with
    | some name => return (name, entry) :: rest
    | none => return rest

/-! ## The image -/

/-- R89: the words of a block: those of its lines, then its literal pool. -/
def Placed.words (routines : NameTable) (p : Placed) : Except AsmError (List Word) := do
  let lines ← concatWords
    (fun l : Line => l.statement.emit p.symbols.find routines.find p.pool.find) p.block.lines
  let pool ← poolWords p.block.literals
  return lines ++ pool

/-- R96: the entry point of the object header, fixed by the first `START`. -/
def headerEntry : List Placed → Except AsmError Word
  | [] => entryPoint (fun _ => none) none
  | p :: _ => entryPoint p.symbols.find p.block.entry

/-- R89, R96: the entry point and the image of a source text, contiguous from address 0. -/
def assembleSource (source : List (List Char)) : Except AsmError (Word × List Word) := do
  let lines ← parseLines source
  let blocks ← splitBlocks none lines
  let placed ← placeBlocks 0 blocks
  let routines ← routineTable placed
  let entry ← headerEntry placed
  let image ← concatWords (Placed.words routines) placed
  return (entry, image)

/-- R234: the object file of a source text: word `i` of the file is the word for address `i`. -/
def objectFile (source : List (List Char)) : Except AsmError (List Byte) :=
  (assembleSource source).map fun out => encodeObject out.1 out.2

end Sys2Proof.Machine
end

