-- ==== Sys2Proof/Machine/HostControl.lean ====
section
/-! DEFINITION. The host control port (60_exceptions.md rules R204 and R211 to R217): the machine operations
the debugger's commands perform, each between two steps. -/

namespace Sys2Proof.Machine

/-- R204: the tag of a final run status. -/
def RunStatus.tag : RunStatus → Option Nat
  | .running => none
  | .terminated => some 0
  | .illegal _ _ => some 1

/-- R213 `step N`: up to N steps, stopping early when the run status leaves `running`. -/
def stepTimes : Nat → State → State
  | 0, s => s
  | n + 1, s =>
    match step s with
    | .next t => stepTimes n t
    | .fault _ => s
    | .refused _ => s

/-- R214 `run`: at least one step, then stop after the first step that leaves PR at a breakpoint or the
run status final. A run that has not stopped within `bound` steps answers `none`; a final state takes
no step (R208). -/
def runToBreakpoint (breakpoints : List Word) : Nat → State → Option State
  | 0, s => if s.status = .running then none else some s
  | n + 1, s =>
    match step s with
    | .next t =>
      if t.status ≠ .running ∨ t.pr ∈ breakpoints then some t else runToBreakpoint breakpoints n t
    | .fault _ => some s
    | .refused _ => some s

/-- R211, R215 `jump addr`: the argument is masked to 16 bits. -/
def State.hostJump (s : State) (addr : Int) : State := s.setPr (wrap addr)

/-- R211, R215 `memory addr val`: both arguments are masked to 16 bits. -/
def State.hostMemory (s : State) (addr val : Int) : State := s.writeMem (wrap addr) (wrap val)

/-- R4, R174: the host supplies one more input line, behind those it has queued. -/
def State.supplyLine (s : State) (line : List Byte) : State := { s with input := s.input ++ [line] }

/-- R36: the register dump shows exactly PR, SP, FR and GR0..GR7. -/
def State.registerDump (s : State) : Word × Word × BitVec 3 × List Word := (s.pr, s.sp, s.fr, s.gr.toList)

/-- `n` words from an address on, each with its address, modulo 2^16. -/
def State.dumpWords (s : State) (a : Word) : Nat → List (Word × Word)
  | 0 => []
  | n + 1 => (a, s.readMem a) :: s.dumpWords (a + 1#16) n

/-- The views of `n` instructions from an address on, one after the other by their sizes. -/
def State.listWords (s : State) (a : Word) : Nat → List (Word × WordView)
  | 0 => []
  | n + 1 =>
    (a, viewWord (s.readMem a)) ::
      s.listWords (a + BitVec.ofNat 16 (viewWord (s.readMem a)).size) n

/-- The machine with the debugger's breakpoint list, which is host state (R214). -/
structure Session where
  machine : State
  breakpoints : List Word
deriving DecidableEq, Repr

/-- R211: the read-only commands. The spec names them and gives no lengths, so a count is an argument;
what `print`, `stack` and `info` show is log entry 25. -/
inductive Inspection where
  | print
  | dump (addr : Int) (count : Nat)
  | stack (count : Nat)
  | disasm (addr : Int) (count : Nat)
  | info
deriving DecidableEq, Repr

/-- What an inspection shows. -/
inductive Shown where
  /-- R36: PR, SP, FR and GR0..GR7 -/
  | registers (dump : Word × Word × BitVec 3 × List Word)
  | words (cells : List (Word × Word))
  | listing (views : List (Word × WordView))
  | breakpoints (addresses : List Word)
deriving DecidableEq, Repr

/-- R211: the reads of an inspection; an address argument is masked to 16 bits. -/
def Session.inspect (d : Session) : Inspection → Shown
  | .print => .registers d.machine.registerDump
  | .dump addr count => .words (d.machine.dumpWords (wrap addr) count)
  | .stack count => .words (d.machine.dumpWords d.machine.sp count)
  | .disasm addr count => .listing (d.machine.listWords (wrap addr) count)
  | .info => .breakpoints d.breakpoints

/-- R211, R214: the host's commands. `run` carries a bound on its steps, because a run need not end. -/
inductive HostCommand where
  | file (bytes : List Byte)
  /-- `step`, with its count if one is given -/
  | step (count : Option Nat)
  | run (bound : Nat)
  | jump (addr : Int)
  | memory (addr val : Int)
  | addBreak (addr : Int)
  | deleteBreak (addr : Int)
  | inspect (what : Inspection)
  /-- the host's side of the I/O channel: one more input line -/
  | supply (line : List Byte)
deriving DecidableEq, Repr

/-- What a host command leaves. -/
inductive HostAnswer where
  | done (d : Session)
  /-- what an inspection shows, and the session, which it leaves as it was -/
  | shown (what : Shown) (d : Session)
  | warning (reason : LoadReject) (d : Session)
  /-- R240: the fatal error "Out of memory" -/
  | outOfMemory
  /-- a `run` that did not stop within its bound -/
  | stillRunning
deriving DecidableEq, Repr

/-- The session with another machine state. -/
def Session.withMachine (d : Session) (s : State) : Session := { d with machine := s }

/-- R211, R214: run to a breakpoint of a list, as a command's answer. -/
def Session.runTo (d : Session) (breakpoints : List Word) (bound : Nat) : HostAnswer :=
  match runToBreakpoint breakpoints bound d.machine with
  | some s => .done (d.withMachine s)
  | none => .stillRunning

/-- R211: `step` without a count takes one step. -/
def stepDefault : Nat := 1

/-- R211 to R216: one host command, between two steps (R212). Without a quiet flag a session given a file
is the command `file` (R216). -/
def Session.perform (d : Session) : HostCommand → HostAnswer
  | .file bytes =>
    match d.machine.load bytes with
    | .loaded s => .done (d.withMachine s)
    | .refused reason s => .warning reason (d.withMachine s)
    | .outOfMemory => .outOfMemory
  | .step count => .done (d.withMachine (stepTimes (count.getD stepDefault) d.machine))
  | .run bound => d.runTo d.breakpoints bound
  | .jump addr => .done (d.withMachine (d.machine.hostJump addr))
  | .memory addr val => .done (d.withMachine (d.machine.hostMemory addr val))
  | .addBreak addr => .done { d with breakpoints := d.breakpoints ++ [wrap addr] }
  | .deleteBreak addr => .done { d with breakpoints := d.breakpoints.filter fun a => a != wrap addr }
  | .inspect what => .shown (d.inspect what) d
  | .supply line => .done (d.withMachine (d.machine.supplyLine line))

/-- R216: quiet mode loads a file and auto-runs, which is `run` with an empty breakpoint list. The spec
does not say whether auto-run follows a load that R240 refuses: that no step is then taken and the answer
is the load's warning is the model's choice (log entry 26). -/
def Session.quietRun (d : Session) (bound : Nat) (bytes : List Byte) : HostAnswer :=
  match d.perform (.file bytes) with
  | .done loaded => loaded.runTo [] bound
  | .shown what e => .shown what e
  | .warning reason e => .warning reason e
  | .outOfMemory => .outOfMemory
  | .stillRunning => .stillRunning

end Sys2Proof.Machine
end

