-- ==== Sys2Proof/Safety.lean ====
section
/-! DEFINITION. What is said of whole runs: the invariant of a state, the states a session can reach, the
end of a run, and what is observed of it (60_exceptions.md rule R217). -/

namespace Sys2Proof.Machine

/-- R33: FR holds one of 000, 001, 010, 100, 101 and 110. -/
def legalFr (fr : BitVec 3) : Bool := fr != 0b011#3 && fr != 0b111#3

/-- The invariant of a state: memory is in canonical form, and FR holds a value R33 allows. -/
def State.sound (s : State) : Bool := Memory.wf s.mem && legalFr s.fr

/-- R35, R208: the run has ended. -/
def State.ended (s : State) : Bool := decide (s.status ≠ .running)

/-- R217: what is observed of a run that has ended. -/
structure Observation where
  status : RunStatus
  gr : Vector Word 8
  pr : Word
  sp : Word
  fr : BitVec 3
  mem : Memory
  output : List Byte
deriving DecidableEq, Repr

/-- R217: the observed outcome, once the run has ended. -/
def State.observe (s : State) : Option Observation :=
  if s.ended then some ⟨s.status, s.gr, s.pr, s.sp, s.fr, s.mem, s.output⟩ else none

/-- The states a session reaches from the state before any load (R242): by a load of any object file, by
a step, and by the host's other operations (R211, R174). -/
inductive Reachable : State → Prop where
  | before_load : Reachable State.reset
  | load (s t : State) (f : List Byte) : Reachable s → s.load f = .loaded t → Reachable t
  | step (s t : State) : Reachable s → Machine.step s = .next t → Reachable t
  | jump (s : State) (addr : Int) : Reachable s → Reachable (s.hostJump addr)
  | memory (s : State) (addr val : Int) : Reachable s → Reachable (s.hostMemory addr val)
  | supply (s : State) (line : List Byte) : Reachable s → Reachable (s.supplyLine line)

end Sys2Proof.Machine
end

