-- ==== Sys2Proof/Certificates/Slice0/Obligations.lean ====
section
/-! DEFINITION. The statements for the provers, each with the rule of spec/ it formalises. The helpers of
the namespace Spec say in their own words what a rule says, apart from the model's definitions. The premise
`Memory.wf` is the model's canonical form of memory (log entry 4). -/

namespace Sys2Proof.Spec

open Sys2Proof.Machine

/-- The field that names a register (R22). -/
def field (r : Reg) : Field := BitVec.ofNat 4 r.val

/-- R28 in bits: OF, then SF when bit 15 is set, then ZF when the word is zero. -/
def fr (overflow : Prop) [Decidable overflow] (v : Word) : BitVec 3 :=
  BitVec.ofBool (decide overflow) ++ BitVec.ofBool (v.getLsbD 15) ++ BitVec.ofBool (decide (v = 0))

/-- R201: the state after `IllegalInstruction` at PR: only the run status is written. -/
def illegalAt (s : State) : State := { s with status := .illegal s.pr (s.readMem s.pr) }

/-- R105, memory form: the state after an instruction that writes a result computed from `a = GR[r]` and
`b`, the word at the effective address. -/
def WritesMemory (op : Field → Field → Word → Instr) (value : Word → Word → Word)
    (flags : Word → Word → BitVec 3) : Prop :=
  ∀ (r : Reg) (xr : Field) (adr : Word) (s : State),
    exec (op (field r) xr adr) s = .next { s with
      gr := s.gr.set r (value s.gr[r] (s.readMem (effectiveAddress s xr adr)))
      fr := flags s.gr[r] (s.readMem (effectiveAddress s xr adr))
      pr := s.pr + 2 }

/-- R105, register form: `b = GR[q]`. -/
def WritesRegister (op : Field → Field → Instr) (value : Word → Word → Word)
    (flags : Word → Word → BitVec 3) : Prop :=
  ∀ (r q : Reg) (s : State),
    exec (op (field r) (field q)) s = .next { s with
      gr := s.gr.set r (value s.gr[r] s.gr[q])
      fr := flags s.gr[r] s.gr[q]
      pr := s.pr + 1 }

/-- R109, memory form of a compare: FR and PR are the only effects. -/
def ComparesMemory (op : Field → Field → Word → Instr) (flags : Word → Word → BitVec 3) : Prop :=
  ∀ (r : Reg) (xr : Field) (adr : Word) (s : State),
    exec (op (field r) xr adr) s = .next { s with
      fr := flags s.gr[r] (s.readMem (effectiveAddress s xr adr))
      pr := s.pr + 2 }

/-- R109, register form of a compare. -/
def ComparesRegister (op : Field → Field → Instr) (flags : Word → Word → BitVec 3) : Prop :=
  ∀ (r q : Reg) (s : State),
    exec (op (field r) (field q)) s = .next { s with fr := flags s.gr[r] s.gr[q], pr := s.pr + 1 }

/-- R135: a shift of `GR[r]` by the effective address. -/
def Shifts (op : Field → Field → Word → Instr) (value : Word → Nat → Word)
    (lastOut : Word → Nat → Bool) : Prop :=
  ∀ (r : Reg) (xr : Field) (adr : Word) (s : State),
    exec (op (field r) xr adr) s = .next { s with
      gr := s.gr.set r (value s.gr[r] (effectiveAddress s xr adr).toNat)
      fr := fr (lastOut s.gr[r] (effectiveAddress s xr adr).toNat = true)
        (value s.gr[r] (effectiveAddress s xr adr).toNat)
      pr := s.pr + 2 }

/-- R148: a jump to the effective address when the condition on FR holds, past its words otherwise. -/
def Jumps (op : Field → Word → Instr) (taken : BitVec 3 → Prop) : Prop :=
  ∀ (xr : Field) (adr : Word) (s : State),
    (taken s.fr → exec (op xr adr) s = .next { s with pr := effectiveAddress s xr adr }) ∧
    (¬ taken s.fr → exec (op xr adr) s = .next { s with pr := s.pr + 2 })

/-- R149: which FR values, of those R33 allows, take a jump at the effective address. -/
def TakenExactlyFor (op : Field → Word → Instr) (values : List (BitVec 3)) : Prop :=
  ∀ (xr : Field) (adr : Word) (s : State), legalFr s.fr = true →
    exec (op xr adr) s =
      .next { s with pr := if s.fr ∈ values then effectiveAddress s xr adr else s.pr + 2 }

/-- R76: the register form's opcode is the memory form's plus 4, and on equal right-hand operands the two
forms do the same but for the advance of PR. -/
def FormsAgree (memory : Field → Field → Word → Instr) (register : Field → Field → Instr) : Prop :=
  (∀ (g x h y : Field) (adr : Word),
    opOf ((encode (register g x)).headD 0) = opOf ((encode (memory h y adr)).headD 0) + 4) ∧
  ∀ (r q : Reg) (xr : Field) (adr : Word) (s : State),
    s.readMem (effectiveAddress s xr adr) = s.gr[q] →
    ∃ t : State, t.pr = s.pr ∧ exec (register (field r) (field q)) s = .next { t with pr := s.pr + 1 } ∧
      exec (memory (field r) xr adr) s = .next { t with pr := s.pr + 2 }

/-- One single-bit step of a shift: from the value and the bit last moved out to the next pair (R137). -/
def slaOnce (p : Word × Bool) : Word × Bool :=
  ((p.1 &&& 0x8000) ||| ((p.1 <<< 1) &&& 0x7FFF), p.1.getLsbD 14)
def sraOnce (p : Word × Bool) : Word × Bool := (p.1.sshiftRight 1, p.1.getLsbD 0)
def sllOnce (p : Word × Bool) : Word × Bool := (p.1 <<< 1, p.1.getLsbD 15)
def srlOnce (p : Word × Bool) : Word × Bool := (p.1 >>> 1, p.1.getLsbD 0)

/-- R136, R137: a shift by `n` is `n` single-bit steps; no bit is out at first. -/
def ShiftsByRepeating (op : Field → Field → Word → Instr) (once : Word × Bool → Word × Bool) : Prop :=
  ∀ (r : Reg) (xr : Field) (adr : Word) (s : State),
    exec (op (field r) xr adr) s = .next { s with
      gr := s.gr.set r (once^[(effectiveAddress s xr adr).toNat] (s.gr[r], false)).1
      fr := fr ((once^[(effectiveAddress s xr adr).toNat] (s.gr[r], false)).2 = true)
        (once^[(effectiveAddress s xr adr).toNat] (s.gr[r], false)).1
      pr := s.pr + 2 }

/-- R21: the field of the one general register an instruction may write. -/
def destination : Instr → Option Field
  | .ldMem g _ _ | .ldReg g _ | .lad g _ _ | .pop g => some g
  | .addaMem g _ _ | .addaReg g _ | .subaMem g _ _ | .subaReg g _ => some g
  | .addlMem g _ _ | .addlReg g _ | .sublMem g _ _ | .sublReg g _ => some g
  | .andMem g _ _ | .andReg g _ | .orMem g _ _ | .orReg g _ | .xorMem g _ _ | .xorReg g _ => some g
  | .sla g _ _ | .sra g _ _ | .sll g _ _ | .srl g _ _ => some g
  | _ => none

/-- R29: whether an instruction writes FR. -/
def writesFr : Instr → Bool
  | .ldMem _ _ _ | .ldReg _ _ => true
  | .addaMem _ _ _ | .addaReg _ _ | .subaMem _ _ _ | .subaReg _ _ => true
  | .addlMem _ _ _ | .addlReg _ _ | .sublMem _ _ _ | .sublReg _ _ => true
  | .andMem _ _ _ | .andReg _ _ | .orMem _ _ _ | .orReg _ _ | .xorMem _ _ _ | .xorReg _ _ => true
  | .cpaMem _ _ _ | .cpaReg _ _ | .cplMem _ _ _ | .cplReg _ _ => true
  | .sla _ _ _ | .sra _ _ _ | .sll _ _ _ | .srl _ _ _ => true
  | _ => false

/-- R29: whether an instruction that writes FR may set OF; the others write OF = 0. -/
def maySetOf : Instr → Bool
  | .addaMem _ _ _ | .addaReg _ _ | .subaMem _ _ _ | .subaReg _ _ => true
  | .addlMem _ _ _ | .addlReg _ _ | .sublMem _ _ _ | .sublReg _ _ => true
  | .sla _ _ _ | .sra _ _ _ | .sll _ _ _ | .srl _ _ _ => true
  | _ => false

/-- R31: the bits of FR an instruction reads. -/
def readsFr : Instr → List Nat
  | .jmi _ _ => [1]
  | .jnz _ _ | .jze _ _ => [0]
  | .jpl _ _ => [1, 0]
  | .jov _ _ => [2]
  | _ => []

/-- R102, R160, R162, R172: the addresses an instruction may store to. -/
def storesTo (i : Instr) (s : State) (a : Word) : Prop :=
  match i with
  | .st _ xr adr => a = effectiveAddress s xr adr
  | .push _ _ | .call _ _ => a = s.sp - 1
  | .svc xr adr => effectiveAddress s xr adr = 0xFFF0 ∧
      (a = s.gr[2] ∨ (a - s.gr[1]).toNat < min s.hostIn.1.length 256)
  | _ => False

/-- R27: SP after an instruction that runs. -/
def spAfter (i : Instr) (s : State) : Word :=
  match i with
  | .push _ _ | .call _ _ => s.sp - 1
  | .pop g => if g.toNat < 8 then s.sp + 1 else s.sp
  | .ret => s.sp + 1
  | _ => s.sp

/-- R72, R79: the bits of the first word that a format uses. -/
def usedBits : Format → Word
  | .op1 | .op5Memory | .op5Register => 0xFFFF#16
  | .op2 => 0xFF0F#16
  | .op3 => 0xFFF0#16
  | .op4 => 0xFF00#16

end Sys2Proof.Spec

open Sys2Proof Sys2Proof.Machine Sys2Proof.Spec

/-! ## Encoding -/

/-- 30_encoding.md R70 to R78: every instruction, its operands at every value, is read back from its own
words, whatever word follows a one-word instruction. The opcode numbers are the spec's (log entry 3). -/
def Obligations.DecodeReadsBackEncode : Prop :=
  ∀ (i : Instr) (after : Word), decode ((encode i).headD 0) ((encode i).getD 1 after) = .ok i

/-- 30_encoding.md R72, R77, R78, R79: what the decoder reads from a word has the mnemonic, the length and
the used bits of the word's own row of the opcode map, and the address word of a two-word instruction. -/
def Obligations.DecodeFollowsOpcodeMap : Prop :=
  ∀ (word adr : Word) (i : Instr), decode word adr = .ok i →
    ∃ row ∈ opcodeMap, row.op = opOf word ∧ row.mnemonic = i.mnemonic ∧ row.format.words = i.size ∧
      (encode i).headD 0 = word &&& usedBits row.format ∧ (i.size = 2 → (encode i).getD 1 0 = adr)

/-- 30_encoding.md R80 (log entry 3 for the numbers): a word is refused exactly when its high byte is no
opcode of the map, by that name; the map has 38 rows with distinct opcodes, so 218 of the 256 values are
refused. -/
def Obligations.UnlistedOpcodesAreRefused : Prop :=
  (∀ (word adr : Word), decode word adr = .error (.illegalOp (opOf word)) ↔
    ∀ row ∈ opcodeMap, row.op ≠ opOf word) ∧
  (opcodeMap.map OpRow.op).Nodup ∧ opcodeMap.length = 38

/-- 30_encoding.md R79 (decision D7): a field that the format does not use changes nothing. -/
def Obligations.IgnoredFieldsDoNotMatter : Prop :=
  ∀ (word word' adr : Word) (row : OpRow), lookupOp (opOf word) = some row →
    word &&& usedBits row.format = word' &&& usedBits row.format → decode word adr = decode word' adr

/-- 30_encoding.md R76. -/
def Obligations.RegisterFormIsMemoryFormPlusFour : Prop :=
  FormsAgree .ldMem .ldReg ∧ FormsAgree .addaMem .addaReg ∧ FormsAgree .subaMem .subaReg ∧
  FormsAgree .addlMem .addlReg ∧ FormsAgree .sublMem .sublReg ∧ FormsAgree .andMem .andReg ∧
  FormsAgree .orMem .orReg ∧ FormsAgree .xorMem .xorReg ∧ FormsAgree .cpaMem .cpaReg ∧
  FormsAgree .cplMem .cplReg

/-- 30_encoding.md R77: the length of a word's instruction depends on its high byte alone, and is one
exactly for NOP, POP, RET and the ten register forms. -/
def Obligations.LengthFollowsFromOpcode : Prop :=
  ∀ (word adr : Word) (i : Instr), decode word adr = .ok i →
    i.size = if opOf word ∈ [0x00#8, 0x71#8, 0x81#8, 0x14#8, 0x24#8, 0x25#8, 0x26#8, 0x27#8, 0x34#8,
      0x35#8, 0x36#8, 0x44#8, 0x45#8] then 1 else 2

/-- 30_encoding.md R81 (and R78): the disassembler's view of a word is its row's mnemonic, operand form and
size; a word with an unknown `op` is `DC #xxxx` of size 1, the digits reading back as the word, and the
executor faults on it. That the fault writes the run status alone is decision D18 (R201, log entry 14),
not R81. -/
def Obligations.DisassemblerViewOfAWord : Prop :=
  (∀ (word adr : Word) (i : Instr), decode word adr = .ok i →
    ∃ f : Format, ⟨opOf word, i.mnemonic, f⟩ ∈ opcodeMap ∧
      viewWord word = ⟨i.mnemonic.letters, .operands f, i.size⟩) ∧
  ∀ word : Word, (∀ row ∈ opcodeMap, row.op ≠ opOf word) →
    (∃ digits : List Char, digits.length = 4 ∧ parseHex ('#' :: digits) = some (word.toNat : Int) ∧
      viewWord word = ⟨['D', 'C'], .literal ('#' :: digits), 1⟩) ∧
    ∀ s : State, s.status = .running → s.readMem s.pr = word → step s = .next (illegalAt s)

/-- 95_test_vectors.md: words written out from the spec, one for each family, decode to the instruction
they stand for (opcode numbers: log entry 3). -/
def Obligations.WrittenOutWordsDecode : Prop :=
  decode 0x1010 0x0003 = .ok (.ldMem 1 0 0x0003) ∧ decode 0x1412 0 = .ok (.ldReg 1 2) ∧
  decode 0x1113 0x0FFF = .ok (.st 1 3 0x0FFF) ∧ decode 0x2120 0x000D = .ok (.subaMem 2 0 0x000D) ∧
  decode 0x3512 0 = .ok (.orReg 1 2) ∧ decode 0x5312 0x0000 = .ok (.srl 1 2 0x0000) ∧
  decode 0x6403 0x0040 = .ok (.jump 3 0x0040) ∧ decode 0x7130 0 = .ok (.pop 3) ∧
  decode 0x8100 0 = .ok .ret ∧ decode 0xF001 0xFFEF = .ok (.svc 1 0xFFEF) ∧
  decode 0x1300 0 = .error (.illegalOp 0x13)

/-! ## The step -/

/-- 30_encoding.md R57, R82 (decisions D6, D18): while the run status is `running`, a step executes the
instruction that the word at PR and the word after it decode to. -/
def Obligations.StepRunsTheDecodedInstruction : Prop :=
  ∀ (s : State) (i : Instr), s.status = .running →
    decode (s.readMem s.pr) (s.readMem (s.pr + 1)) = .ok i → step s = exec i s

/-- 60_exceptions.md R200 case (a), R201 (decisions D6, D18): a word whose high byte is no opcode raises
`IllegalInstruction(PR, word)` and nothing else is written. -/
def Obligations.UnlistedOpcodeRaisesIllegalInstruction : Prop :=
  ∀ s : State, s.status = .running → (∀ row ∈ opcodeMap, row.op ≠ opOf (s.readMem s.pr)) →
    step s = .next (illegalAt s)

/-- 60_exceptions.md R200 cases (b) and (c), R201 (decision D6): an instruction that uses a field of 8..15
as a register raises `IllegalInstruction(PR, word)` and nothing else is written. -/
def Obligations.RegisterFieldAboveSevenIsIllegal : Prop :=
  ∀ (i : Instr) (s : State), (∃ f ∈ i.registerFields, 8 ≤ f.toNat) → exec i s = .next (illegalAt s)

/-- 10_state.md R35, 60_exceptions.md R208 (decision D21): no step is taken from a final run status. -/
def Obligations.FinalStatusTakesNoStep : Prop :=
  ∀ s : State, s.status ≠ .running → step s = .fault (.notRunning s.status)

/-- 60_exceptions.md R203, 20_memory.md R60: while the run status is `running`, every step has a next
state, whatever memory and the registers hold. Two choices stand under it: the wait inside `HostIn` is not
modelled, so a line is always there (log entry 9), and an `SVC` with an unknown number does nothing
(decision D12, log entry 17). -/
def Obligations.RunningMachineAlwaysSteps : Prop :=
  ∀ s : State, s.status = .running → ∃ t, step s = .next t

/-- 45_system.md R176, 60_exceptions.md R200, R202 (decisions D5, D6, D18, D21): a run ends only by an
illegal instruction, which writes nothing else, or by a `RET` whose SP is at or above 0xFF00. Illegal is a
word with no opcode of the map or an instruction that uses a field of 8..15 as a register. -/
def Obligations.RunEndsOnlyByRetOrIllegal : Prop :=
  ∀ s t : State, step s = .next t → t.status ≠ .running →
    (t = illegalAt s ∧
      ((∀ row ∈ opcodeMap, row.op ≠ opOf (s.readMem s.pr)) ∨
        ∃ i, decode (s.readMem s.pr) (s.readMem (s.pr + 1)) = .ok i ∧ i.wellFormed = false)) ∨
    (opOf (s.readMem s.pr) = 0x81 ∧ 0xFF00 ≤ s.sp.toNat ∧
      t = { s with pr := s.readMem s.sp, sp := s.sp + 1, status := .terminated })

/-! ## Results -/

/-- 20_memory.md R52: the formula, GR0 as no index register, the two fields it is computed from (the index
field and the word after the first), and that no index field raises an exception. The last clause goes
beyond R52: it covers `SVC` with any number (decision D12, log entry 17) and with a line always there (log
entry 9), and its premise is the register-field check of decision D6 (log entry 8). -/
def Obligations.EffectiveAddressRule : Prop :=
  (∀ (s : State) (xr : Field) (adr : Word),
    effectiveAddress s xr adr =
      BitVec.ofNat 16 (adr.toNat +
        (if 1 ≤ xr.toNat ∧ xr.toNat ≤ 7 then (s.gr.toList.getD xr.toNat 0).toNat else 0)) ∧
    ∀ v, effectiveAddress { s with gr := s.gr.set 0 v } xr adr = effectiveAddress s xr adr) ∧
  (∀ (s : State) (i : Instr), decode (s.readMem s.pr) (s.readMem (s.pr + 1)) = .ok i → i.size = 2 →
    xrOf ((encode i).headD 0) = xrOf (s.readMem s.pr) ∧ (encode i).getD 1 0 = s.readMem (s.pr + 1)) ∧
  ∀ (i : Instr) (s : State), i.size = 2 → i.wellFormed = true →
    ∃ t, exec i s = .next t ∧ t.status = s.status

/-- 10_state.md R28, and R29 (derived there): the result flags, and that every instruction of R29 writes
all three bits at once from an overflow bit and its result, the register it writes (or, for a compare, the
saturated difference of CompareResult); OF is 0 but for arithmetic and shifts. Well-formed: decision D6. -/
def Obligations.ResultFlagsRule : Prop :=
  (∀ v : Word, flagsOf v = if v = 0 then 0b001 else if v.getLsbD 15 then 0b010 else 0b000) ∧
  (∀ (overflow : Bool) (v : Word),
    frOf overflow v = (if overflow then 4#3 else 0#3) ||| flagsOf v ∧
    (frOf overflow v).getLsbD 2 = overflow ∧ (frOf overflow v).getLsbD 1 = v.getLsbD 15 ∧
    (frOf overflow v).getLsbD 0 = decide (v = 0) ∧ legalFr (frOf overflow v) = true) ∧
  ∀ (i : Instr) (s t : State), exec i s = .next t → writesFr i = true → i.wellFormed = true →
    ∃ (overflow : Bool) (v : Word), t.fr = frOf overflow v ∧ (maySetOf i = false → overflow = false) ∧
      ∀ r : Reg, destination i = some (field r) → v = t.gr[r]

/-- 40_load_store.md R100, R101: `LD` in both forms: the words that encode it, the state after it, and the
exception for a register field of 8..15, which is decision D6 (R22, log entry 8) and writes nothing else by
decision D18 (R201, log entry 14). -/
def Obligations.LoadResult : Prop :=
  (∀ (gr xr : Field) (adr : Word), decode (0x10#8 ++ gr ++ xr : BitVec 16) adr = .ok (.ldMem gr xr adr)) ∧
  (∀ (r1 r2 : Field) (adr : Word), decode (0x14#8 ++ r1 ++ r2 : BitVec 16) adr = .ok (.ldReg r1 r2)) ∧
  WritesMemory .ldMem (fun _ b => b) (fun _ b => fr False b) ∧
  WritesRegister .ldReg (fun _ b => b) (fun _ b => fr False b) ∧
  (∀ (gr xr : Field) (adr : Word) (s : State), 8 ≤ gr.toNat →
    exec (.ldMem gr xr adr) s = .next (illegalAt s)) ∧
  ∀ (r1 r2 : Field) (s : State), 8 ≤ r1.toNat ∨ 8 ≤ r2.toNat →
    exec (.ldReg r1 r2) s = .next (illegalAt s)

/-- 40_load_store.md R102: `ST` stores the register's word at the effective address; only that word and
PR change. -/
def Obligations.StoreResult : Prop :=
  ∀ (r : Reg) (xr : Field) (adr : Word) (s : State), Memory.wf s.mem = true →
    ∃ t, exec (.st (field r) xr adr) s = .next t ∧
      (∀ a, t.readMem a = if a = effectiveAddress s xr adr then s.gr[r] else s.readMem a) ∧
      t = { s with mem := t.mem, pr := s.pr + 2 }

/-- 40_load_store.md R103: `LAD` loads the effective address itself. -/
def Obligations.LoadAddressResult : Prop :=
  ∀ (r : Reg) (xr : Field) (adr : Word) (s : State),
    exec (.lad (field r) xr adr) s =
      .next { s with gr := s.gr.set r (effectiveAddress s xr adr), pr := s.pr + 2 }

/-- 41_arith_logic.md R106. -/
def Obligations.SignedAddSubtractResult : Prop :=
  (∀ a b : Word, wrap (a.toInt + b.toInt) = a + b ∧ wrap (a.toInt - b.toInt) = a - b) ∧
  WritesMemory .addaMem (fun a b => wrap (a.toInt + b.toInt))
    (fun a b => fr (a.toInt + b.toInt < -32768 ∨ 32767 < a.toInt + b.toInt) (a + b)) ∧
  WritesRegister .addaReg (fun a b => wrap (a.toInt + b.toInt))
    (fun a b => fr (a.toInt + b.toInt < -32768 ∨ 32767 < a.toInt + b.toInt) (a + b)) ∧
  WritesMemory .subaMem (fun a b => wrap (a.toInt - b.toInt))
    (fun a b => fr (a.toInt - b.toInt < -32768 ∨ 32767 < a.toInt - b.toInt) (a - b)) ∧
  WritesRegister .subaReg (fun a b => wrap (a.toInt - b.toInt))
    (fun a b => fr (a.toInt - b.toInt < -32768 ∨ 32767 < a.toInt - b.toInt) (a - b))

/-- 41_arith_logic.md R107 (decision D10 for SF and ZF): OF is the carry of `ADDL` and the borrow of
`SUBL`. -/
def Obligations.UnsignedAddSubtractResult : Prop :=
  WritesMemory .addlMem (fun a b => a + b) (fun a b => fr (65535 < a.toNat + b.toNat) (a + b)) ∧
  WritesRegister .addlReg (fun a b => a + b) (fun a b => fr (65535 < a.toNat + b.toNat) (a + b)) ∧
  WritesMemory .sublMem (fun a b => a - b) (fun a b => fr (a.toNat < b.toNat) (a - b)) ∧
  WritesRegister .sublReg (fun a b => a - b) (fun a b => fr (a.toNat < b.toNat) (a - b))

/-- 41_arith_logic.md R108. -/
def Obligations.LogicResult : Prop :=
  WritesMemory .andMem (fun a b => a &&& b) (fun a b => fr False (a &&& b)) ∧
  WritesRegister .andReg (fun a b => a &&& b) (fun a b => fr False (a &&& b)) ∧
  WritesMemory .orMem (fun a b => a ||| b) (fun a b => fr False (a ||| b)) ∧
  WritesRegister .orReg (fun a b => a ||| b) (fun a b => fr False (a ||| b)) ∧
  WritesMemory .xorMem (fun a b => a ^^^ b) (fun a b => fr False (a ^^^ b)) ∧
  WritesRegister .xorReg (fun a b => a ^^^ b) (fun a b => fr False (a ^^^ b))

/-- 41_arith_logic.md R109 (its derived equivalence, and decision D31: nothing is written but FR and PR):
ZF is equality, SF is less-than, signed for `CPA` and unsigned for `CPL`. -/
def Obligations.CompareResult : Prop :=
  ComparesMemory .cpaMem (fun a b => if a = b then 0b001 else if a.toInt < b.toInt then 0b010 else 0) ∧
  ComparesRegister .cpaReg (fun a b => if a = b then 0b001 else if a.toInt < b.toInt then 0b010 else 0) ∧
  ComparesMemory .cplMem (fun a b => if a = b then 0b001 else if a.toNat < b.toNat then 0b010 else 0) ∧
  ComparesRegister .cplReg (fun a b => if a = b then 0b001 else if a.toNat < b.toNat then 0b010 else 0)

/-- 42_shift.md R140 to R143 (decisions D8, D9): the value and the OF of each shift by the formulas of its
pseudocode, over unbounded integers. -/
def Obligations.ShiftResult : Prop :=
  Shifts .sla (fun v n => (v &&& 0x8000) ||| (BitVec.ofNat 16 (v.toNat * 2 ^ n) &&& 0x7FFF))
    (fun v n => decide (1 ≤ n ∧ n ≤ 15) && v.getLsbD (15 - n)) ∧
  Shifts .sra (fun v n => wrap (v.toInt / 2 ^ n))
    (fun v n => if n = 0 then false else if n ≤ 16 then v.getLsbD (n - 1) else v.getLsbD 15) ∧
  Shifts .sll (fun v n => BitVec.ofNat 16 (v.toNat * 2 ^ n))
    (fun v n => decide (1 ≤ n ∧ n ≤ 16) && v.getLsbD (16 - n)) ∧
  Shifts .srl (fun v n => BitVec.ofNat 16 (v.toNat / 2 ^ n))
    (fun v n => decide (1 ≤ n ∧ n ≤ 16) && v.getLsbD (n - 1))

/-- 42_shift.md R136, R137 (decisions D8, D9): every shift, by any count 0..65535, is that many single-bit
steps, and OF is the bit the last step moved out. -/
def Obligations.ShiftIsRepeatedSingleBitShift : Prop :=
  ShiftsByRepeating .sla slaOnce ∧ ShiftsByRepeating .sra sraOnce ∧
  ShiftsByRepeating .sll sllOnce ∧ ShiftsByRepeating .srl srlOnce

/-- 43_branch.md R148, R150 to R155 (decision D11: a jump changes PR alone). -/
def Obligations.JumpResult : Prop :=
  Jumps .jmi (fun f => f.getLsbD 1 = true) ∧ Jumps .jnz (fun f => f.getLsbD 0 = false) ∧
  Jumps .jze (fun f => f.getLsbD 0 = true) ∧ Jumps .jump (fun _ => True) ∧
  Jumps .jpl (fun f => f.getLsbD 1 = false ∧ f.getLsbD 0 = false) ∧ Jumps .jov (fun f => f.getLsbD 2 = true)

/-- 43_branch.md R149, R148 (decision D11, log entry 16: a jump changes PR alone): the table of the jump
conditions, in FR values `OF SF ZF`, and where PR goes. -/
def Obligations.JumpConditionTable : Prop :=
  TakenExactlyFor .jmi [0b010, 0b110] ∧ TakenExactlyFor .jnz [0b000, 0b010, 0b100, 0b110] ∧
  TakenExactlyFor .jze [0b001, 0b101] ∧
  TakenExactlyFor .jump [0b000, 0b001, 0b010, 0b100, 0b101, 0b110] ∧
  TakenExactlyFor .jpl [0b000, 0b100] ∧ TakenExactlyFor .jov [0b100, 0b101, 0b110]

/-- 44_stack_call.md R160, R162 (decisions D3, D4): `PUSH` and `CALL` decrement SP and store one word at the
new SP; nothing else changes but PR. -/
def Obligations.PushAndCallResult : Prop :=
  ∀ (xr : Field) (adr : Word) (s : State), Memory.wf s.mem = true →
    (∃ t, exec (.push xr adr) s = .next t ∧
      (∀ a, t.readMem a = if a = s.sp - 1 then effectiveAddress s xr adr else s.readMem a) ∧
      t = { s with mem := t.mem, sp := s.sp - 1, pr := s.pr + 2 }) ∧
    ∃ t, exec (.call xr adr) s = .next t ∧
      (∀ a, t.readMem a = if a = s.sp - 1 then s.pr + 2 else s.readMem a) ∧
      t = { s with mem := t.mem, sp := s.sp - 1, pr := effectiveAddress s xr adr }

/-- 44_stack_call.md R161 (decision D4). -/
def Obligations.PopResult : Prop :=
  ∀ (r : Reg) (s : State), exec (.pop (field r)) s =
    .next { s with gr := s.gr.set r (s.readMem s.sp), sp := s.sp + 1, pr := s.pr + 1 }

/-- 44_stack_call.md R163 (decision D5): `RET` pops PR, and ends the run exactly when SP was at or above
0xFF00. -/
def Obligations.ReturnResult : Prop :=
  ∀ s : State,
    (s.sp.toNat < 0xFF00 → exec .ret s = .next { s with pr := s.readMem s.sp, sp := s.sp + 1 }) ∧
    (0xFF00 ≤ s.sp.toNat → exec .ret s =
      .next { s with pr := s.readMem s.sp, sp := s.sp + 1, status := .terminated })

/-- 44_stack_call.md R158 (decision D4): `PUSH x` followed at once by `POP GRn` sets GRn to `x` and restores
SP. -/
def Obligations.PushThenPopRestores : Prop :=
  ∀ (s t u : State) (xr : Field) (adr : Word) (r : Reg), Memory.wf s.mem = true →
    exec (.push xr adr) s = .next t → exec (.pop (field r)) t = .next u →
    u = { s with gr := s.gr.set r (effectiveAddress s xr adr), mem := u.mem, pr := s.pr + 3 } ∧
      ∀ a, a ≠ s.sp - 1 → u.readMem a = s.readMem a

/-- 44_stack_call.md R158 (decisions D4, D5): two steps, a `CALL` and the `RET` its target holds, come back
to the word after the `CALL` with SP restored, where the stack pointer is 1..0xFF00. -/
def Obligations.CallThenReturnComesBack : Prop :=
  ∀ (s t : State) (xr : Field) (adr : Word), Memory.wf s.mem = true → s.status = .running →
    1 ≤ s.sp.toNat → s.sp.toNat ≤ 0xFF00 →
    decode (s.readMem s.pr) (s.readMem (s.pr + 1)) = .ok (.call xr adr) → step s = .next t →
    opOf (t.readMem t.pr) = 0x81 →
    ∃ u, step t = .next u ∧ u = { s with mem := u.mem, pr := s.pr + 2 } ∧
      ∀ a, a ≠ s.sp - 1 → u.readMem a = s.readMem a

/-- 45_system.md R172, R174 (decisions D13, D15): the input service. Whatever line the host gives, its
length, at most 256, is stored at GR2 and then its first bytes from GR1 on, one per word; bytes that
fall on the length word replace it. Only memory, the host's input and PR change. Log entry 9: where the
host has queued no line, the line is the free value, and this holds for every value of it. -/
def Obligations.InputServiceResult : Prop :=
  ∀ (xr : Field) (adr : Word) (s : State), Memory.wf s.mem = true →
    effectiveAddress s xr adr = 0xFFF0 →
    ∃ (line : List Byte) (t : State), exec (.svc xr adr) s = .next t ∧
      (s.input = line :: t.input ∨
        (s.input = [] ∧ t.input = [] ∧ line = Config.hostLine s.freeReads)) ∧
      (∀ a, t.readMem a =
        if (a - s.gr[1]).toNat < min line.length 256 then
          (line.getD (a - s.gr[1]).toNat 0).setWidth 16
        else if a = s.gr[2] then BitVec.ofNat 16 (min line.length 256)
        else s.readMem a) ∧
      t = { s with mem := t.mem, input := t.input, freeReads := t.freeReads, pr := s.pr + 2 }

/-- 45_system.md R173 (decisions D14, D15): the output service sends the low byte of each counted word from
GR1 on, modulo 2^16, and the newline 0x0A (the spec's own choice of byte, log entry 11). -/
def Obligations.OutputServiceResult : Prop :=
  ∀ (xr : Field) (adr : Word) (s : State), effectiveAddress s xr adr = 0xFFF2 →
    exec (.svc xr adr) s = .next { s with
      output := s.output ++
        ((List.range (s.readMem s.gr[2]).toNat).map fun k =>
          (s.readMem (s.gr[1] + BitVec.ofNat 16 k)).extractLsb' 0 8) ++ [0x0A]
      pr := s.pr + 2 }

/-- 45_system.md R171 (decision D12), R175: an `SVC` with another number only advances PR by two, and
`NOP` by one. -/
def Obligations.UnknownServiceAndNopOnlyAdvance : Prop :=
  (∀ (xr : Field) (adr : Word) (s : State), effectiveAddress s xr adr ≠ 0xFFF0 →
    effectiveAddress s xr adr ≠ 0xFFF2 → exec (.svc xr adr) s = .next { s with pr := s.pr + 2 }) ∧
  ∀ s : State, exec .nop s = .next { s with pr := s.pr + 1 }

/-! ## Frames over all instructions

A next state is also what an illegal register field gives; that it writes the run status alone is decisions
D6 and D18 (log entries 8 and 14). -/

/-- 10_state.md R21, R53 of 20_memory.md (derived): an instruction changes no general register but its
destination, a memory form its index register neither. -/
def Obligations.OnlyTheDestinationRegisterChanges : Prop :=
  ∀ (i : Instr) (s t : State) (r : Reg), exec i s = .next t → destination i ≠ some (field r) →
    t.gr[r] = s.gr[r]

/-- 20_memory.md R53, R57, 45_system.md R170: an instruction changes no word of memory but those it stores
to: the effective address of `ST`, the new stack slot of `PUSH` and `CALL`, the length word and the
buffer of the input service. -/
def Obligations.OnlyTheStoredWordsChange : Prop :=
  ∀ (i : Instr) (s t : State) (a : Word), exec i s = .next t → ¬ storesTo i s a →
    t.readMem a = s.readMem a

/-- 10_state.md R27 (decision D4, log entry 5): only `PUSH` and `CALL` decrement SP, only `POP` and `RET`
increment it, by one. A `POP` whose field is 8..15 raises the exception, which leaves SP: decisions D6 and
D18 (R22, R201, log entries 8 and 14). -/
def Obligations.StackPointerMovesOnlyByStackInstructions : Prop :=
  ∀ (i : Instr) (s t : State), exec i s = .next t → t.sp = spAfter i s

/-- 10_state.md R31, R29, R30 (decision D11, log entry 16): FR is read by the conditional jumps alone, each
only at its own flags, and changed by no instruction outside R29. Two states that differ only in flags the
instruction does not read give next states that differ at most in FR; no instruction but those of R29
changes FR; and after those FR does not depend on what it was (its value: ResultFlagsRule). -/
def Obligations.FlagsReachOnlyTheConditionalJumps : Prop :=
  (∀ (i : Instr) (s t : State) (f : BitVec 3), (∀ k ∈ readsFr i, f.getLsbD k = s.fr.getLsbD k) →
    exec i s = .next t → ∃ g, exec i { s with fr := f } = .next { t with fr := g }) ∧
  (∀ (i : Instr) (s t : State), exec i s = .next t → writesFr i = false → t.fr = s.fr) ∧
  ∀ (i : Instr) (s t u : State) (f : BitVec 3), exec i s = .next t → writesFr i = true →
    i.wellFormed = true → exec i { s with fr := f } = .next u → u = t

/-- 45_system.md R170, R174, 60_exceptions.md R203: the host's streams are reached only through `SVC`, and
the run status changes only by `RET` and by the exception. -/
def Obligations.HostStreamsAndStatusFrame : Prop :=
  ∀ (i : Instr) (s t : State), exec i s = .next t →
    ((∀ xr adr, i ≠ .svc xr adr) →
      t.input = s.input ∧ t.freeReads = s.freeReads ∧ t.output = s.output) ∧
    (i ≠ .ret → i.wellFormed = true → t.status = s.status)

/-! ## Memory -/

/-- 20_memory.md R61, R63 (decision D16): in a memory in canonical form a read gives the word last written
to that address, every other address is left alone, and the next fetch sees the write. That the form is
kept is the model's own (log entry 4). -/
def Obligations.ReadGivesLastWrite : Prop :=
  ∀ (s : State) (a v b : Word), Memory.wf s.mem = true →
    (s.writeMem a v).readMem b = (if b = a then v else s.readMem b) ∧
    Memory.wf (s.writeMem a v).mem = true ∧
    (s.pr = a → (s.writeMem a v).fetch.1 = v)

/-- The model's canonical form (log entry 4): two memories in it that read the same at every address of
20_memory.md R50 are the same data. -/
def Obligations.EqualReadsAreEqualMemories : Prop :=
  ∀ m m' : Memory, Memory.wf m = true → Memory.wf m' = true →
    (∀ a : Word, Memory.read m a.toNat = Memory.read m' a.toNat) → m = m'

/-! ## Invariants -/

/-- 10_state.md R33 and the canonical form of memory (the model's own, log entry 4), at reset. FR is 000
there by decision D2 (log entry 2). -/
def Obligations.ResetIsSound : Prop :=
  State.reset.sound = true ∧ Memory.wf State.reset.mem = true ∧
    State.reset.fr ∈ [0b000#3, 0b001, 0b010, 0b100, 0b101, 0b110]

/-- 10_state.md R33: every step keeps FR among the six values, and memory in canonical form (the model's
own, log entry 4), from every state where they hold. -/
def Obligations.StepKeepsSound : Prop :=
  ∀ s t : State, s.sound = true → step s = .next t → t.sound = true

/-- 10_state.md R33, 60_exceptions.md R211, R215: in every state that loads, steps and the host's
operations reach, FR is one of the six values, and memory is in canonical form (the model's own, log entry
4). FR starts at 000 by decision D2 (log entry 2). -/
def Obligations.ReachableStatesAreSound : Prop :=
  ∀ s : State, Reachable s →
    Memory.wf s.mem = true ∧ s.fr ∈ [0b000#3, 0b001, 0b010, 0b100, 0b101, 0b110]

/-! ## The object file, loading and reset -/

/-- 70_reset_and_hazards.md R232, R233. -/
def Obligations.EncodeObjectLayout : Prop :=
  ∀ (e : Word) (ws : List Word),
    encodeObject e ws = [0x43, 0x41, 0x53, 0x4C, e.extractLsb' 8 8, e.extractLsb' 0 8,
      0, 0, 0, 0, 0, 0, 0, 0, 0, 0] ++ (ws.map fun w => [w.extractLsb' 8 8, w.extractLsb' 0 8]).flatten ∧
    (encodeObject e ws).length = 16 + 2 * ws.length

/-- 70_reset_and_hazards.md R236 (derived there): the codec round-trips both ways. -/
def Obligations.ObjectCodecRoundTrip : Prop :=
  (∀ (e : Word) (ws : List Word), decodeObject (encodeObject e ws) = .ok (e, ws)) ∧
  ∀ (f : List Byte) (e : Word) (ws : List Word), decodeObject f = .ok (e, ws) →
    (f.drop 6).take 10 = List.replicate 10 0 → encodeObject e ws = f

/-- 70_reset_and_hazards.md R235 (decision D19): the decoder's three rejections, in order, and the word of
each pair of bytes otherwise; bytes 6..15 are ignored. -/
def Obligations.DecodeObjectCases : Prop :=
  ∀ f : List Byte,
    (f.length < 4 ∨ f.take 4 ≠ [0x43, 0x41, 0x53, 0x4C] → decodeObject f = .error .badMagic) ∧
    (f.take 4 = [0x43, 0x41, 0x53, 0x4C] → f.length < 16 → decodeObject f = .error .shortHeader) ∧
    (f.take 4 = [0x43, 0x41, 0x53, 0x4C] → 16 ≤ f.length → (f.length - 16) % 2 = 1 →
      decodeObject f = .error .oddLength) ∧
    (f.take 4 = [0x43, 0x41, 0x53, 0x4C] → 16 ≤ f.length → (f.length - 16) % 2 = 0 →
      ∃ ws, decodeObject f =
          .ok (BitVec.ofNat 16 ((f.getD 4 0).toNat * 256 + (f.getD 5 0).toNat), ws) ∧
        ws.length = (f.length - 16) / 2 ∧
        ∀ i < ws.length, ws.getD i 0 =
          BitVec.ofNat 16 ((f.getD (16 + 2 * i) 0).toNat * 256 + (f.getD (17 + 2 * i) 0).toNat))

/-- 70_reset_and_hazards.md R240 (decision D19): a rejected file leaves the state as it was, an image of
more than 0xFF00 words is fatal, and any other loads. -/
def Obligations.LoadErrorCases : Prop :=
  ∀ (s : State) (f : List Byte),
    (∀ reason, decodeObject f = .error reason → s.load f = .refused reason s) ∧
    (∀ e ws, decodeObject f = .ok (e, ws) → 0xFF00 < ws.length → s.load f = .outOfMemory) ∧
    ∀ e ws, decodeObject f = .ok (e, ws) → ws.length ≤ 0xFF00 → ∃ t, s.load f = .loaded t

/-- 70_reset_and_hazards.md R241, R242 (decisions D1, D2, D20; log entries 1 and 2): a load sets the whole
machine state, from any state before it; the reset state is that of an empty image with entry point 0.
That a load keeps the host's streams is the model's choice (log entry 18), and the canonical form of
memory its own (log entry 4). -/
def Obligations.LoadIsTheReset : Prop :=
  (∀ (s : State) (e : Word) (ws : List Word), ws.length ≤ 0xFF00 →
    ∃ t, s.load (encodeObject e ws) = .loaded t ∧ Memory.wf t.mem = true ∧
      (∀ a, t.readMem a = ws.getD a.toNat 0) ∧
      t = { s with gr := Vector.replicate 8 0, pr := e, sp := 0xFF00, fr := 0, mem := t.mem,
                   status := .running }) ∧
  State.reset.load (encodeObject 0 []) = .loaded State.reset ∧
  (∀ a, State.reset.readMem a = 0) ∧ State.reset.pr = 0 ∧ State.reset.sp = 0xFF00 ∧
  State.reset.gr = Vector.replicate 8 0 ∧ State.reset.fr = 0 ∧ State.reset.status = .running

/-! ## The host control port -/

/-- 60_exceptions.md R215: `jump` sets PR, `memory` stores one word, inspection writes nothing, and no
operation of the host's own but load writes GR0..GR7, SP or FR (`step` and `run` execute instructions). -/
def Obligations.HostJumpAndMemory : Prop :=
  ∀ (d : Session),
    (∀ addr, d.perform (.jump addr) =
      .done { d with machine := { d.machine with pr := BitVec.ofInt 16 addr } }) ∧
    (∀ addr val, d.perform (.memory addr val) =
      .done { d with machine := d.machine.writeMem (BitVec.ofInt 16 addr) (BitVec.ofInt 16 val) }) ∧
    (∀ what, d.perform (.inspect what) = .shown (d.inspect what) d) ∧
    ∀ (c : HostCommand) (d' : Session), d.perform c = .done d' →
      (∀ bytes, c ≠ .file bytes) → (∀ n, c ≠ .step n) → (∀ n, c ≠ .run n) →
      d'.machine.gr = d.machine.gr ∧ d'.machine.sp = d.machine.sp ∧ d'.machine.fr = d.machine.fr

/-- 60_exceptions.md R211, R213 (decision D21): `step N` takes N steps one after the other and stops where
the run status is final; without a count it takes one. -/
def Obligations.StepCommandTakesSteps : Prop :=
  (∀ s : State, stepTimes 0 s = s) ∧
  (∀ (n k : Nat) (s : State), stepTimes (n + k) s = stepTimes k (stepTimes n s)) ∧
  (∀ (n : Nat) (s t : State), step s = .next t → stepTimes (n + 1) s = stepTimes n t) ∧
  (∀ (n : Nat) (s : State), s.status ≠ .running → stepTimes n s = s) ∧
  ∀ d : Session,
    (∀ n, d.perform (.step (some n)) = .done { d with machine := stepTimes n d.machine }) ∧
    d.perform (.step none) = d.perform (.step (some 1))

/-- 60_exceptions.md R214 (decisions D21, D22): `run` from a running state takes at least one step and
stops after the first step that leaves PR at a breakpoint or the run status final (the bound on its steps
is the model's, log entry 15). -/
def Obligations.RunStopsAtTheFirstBreakpoint : Prop :=
  ∀ (breakpoints : List Word) (bound : Nat) (s t : State), s.status = .running →
    (runToBreakpoint breakpoints bound s = some t ↔
      ∃ n, 1 ≤ n ∧ n ≤ bound ∧ t = stepTimes n s ∧ (t.status ≠ .running ∨ t.pr ∈ breakpoints) ∧
        ∀ k, 1 ≤ k → k < n →
          (stepTimes k s).status = .running ∧ (stepTimes k s).pr ∉ breakpoints)

/-! ## The assembler's words -/

/-- 30_encoding.md R92 to R95 (opcode numbers: log entry 3): the words of the four macros. -/
def Obligations.MacroWords : Prop :=
  (∀ buf len : Word, encodeAll (macroIn buf len) =
    [0x7001, 0x0000, 0x7002, 0x0000, 0x1210, buf, 0x1220, len, 0xF000, 0xFFF0, 0x7120, 0x7110]) ∧
  (∀ buf len : Word, encodeAll (macroOut buf len) =
    [0x7001, 0x0000, 0x7002, 0x0000, 0x1210, buf, 0x1220, len, 0xF000, 0xFFF2, 0x7120, 0x7110]) ∧
  encodeAll macroRpush = [0x7001, 0x0000, 0x7002, 0x0000, 0x7003, 0x0000, 0x7004, 0x0000, 0x7005, 0x0000,
    0x7006, 0x0000, 0x7007, 0x0000] ∧
  encodeAll macroRpop = [0x7170, 0x7160, 0x7150, 0x7140, 0x7130, 0x7120, 0x7110]

/-- 30_encoding.md R88: for a mnemonic with a register form, the operands assemble to it exactly when the
second is a register name, and to the memory form otherwise; the register form takes no third operand. -/
def Obligations.RegisterFormChosenByOperand : Prop :=
  ∀ (symbols pool : List Char → Option Word) (m : Mnemonic) (make : Field → Field → Instr)
    (r o : List Char) (f : Field), registerForm m = some make → parseRegister r = some f →
    (∀ q, parseRegister o = some q →
      assemble symbols pool m [r, o] = .ok (make f q) ∧
      ∀ x, assemble symbols pool m [r, o, x] = .error .invalidArity) ∧
    (parseRegister o = none → ∃ makeMemory, memoryForm m = some makeMemory ∧
      (∀ i, assemble symbols pool m [r, o] = .ok i → ∃ adr, i = makeMemory f 0 adr) ∧
      ∀ x i, assemble symbols pool m [r, o, x] = .ok i → ∃ k adr, i = makeMemory f k adr)

/-- 30_encoding.md R91: `GR0` and `0` are rejected in an index position, an accepted index operand gives a
field of 1..7, every instruction with an index operand passes through that check, and a field of 0 is no
index. -/
def Obligations.Gr0IsNoIndexOperand : Prop :=
  (indexOperand ['G', 'R', '0'] = .error .indexByGr0 ∧ indexOperand ['0'] = .error .indexByGr0) ∧
  (∀ (t : List Char) (f : Field), indexOperand t = .ok f → 1 ≤ f.toNat ∧ f.toNat ≤ 7) ∧
  (∀ (symbols pool : List Char → Option Word) (m : Mnemonic) (r a x : List Char) (i : Instr),
    assemble symbols pool m [r, a, x] = .ok i → ∃ f, indexOperand x = .ok f ∧
      ∃ make g adr, memoryForm m = some make ∧ i = make g f adr) ∧
  (∀ (symbols pool : List Char → Option Word) (m : Mnemonic) (make : Field → Word → Instr)
    (a x : List Char) (i : Instr), addressForm m = some make →
    assemble symbols pool m [a, x] = .ok i → ∃ f adr, indexOperand x = .ok f ∧ i = make f adr) ∧
  ∀ (s : State) (adr : Word), effectiveAddress s 0 adr = adr

/-- 30_encoding.md R85 (what is no such line is an error by log entry 12): a line that is read has its label
at column 1 and of the pattern `[A-Z][0-9A-Za-z]{0,7}`, a blank before its mnemonic, and a mnemonic of
upper-case letters. -/
def Obligations.SourceLineParts : Prop :=
  ∀ (line : List Char) (l : SourceLine), parseLine line = .ok (some l) →
    (∀ name, l.label = some name → isLabel name = true ∧ ∃ rest, line = name ++ rest) ∧
    (l.label = none → ∃ c rest, line = c :: rest ∧ isBlank c = true) ∧
    l.mnemonic ≠ [] ∧ (∀ c ∈ l.mnemonic, isUpper c = true) ∧
    ∃ before after c, isBlank c = true ∧ line = before ++ c :: (l.mnemonic ++ after)

/-- 30_encoding.md R89, R92 to R95: what each directive and macro emits. -/
def Obligations.DirectivesEmitTheirWords : Prop :=
  ∀ symbols routines pool : List Char → Option Word,
    (∀ e, (Statement.start e).emit symbols routines pool = .ok []) ∧
    Statement.finish.emit symbols routines pool = .ok [] ∧
    (∀ n, (Statement.space n).emit symbols routines pool = .ok (List.replicate n 0)) ∧
    (∀ v x, quotedWords v = none → parseNumber v = some x →
      (Statement.data [v]).emit symbols routines pool = .ok [BitVec.ofInt 16 x]) ∧
    (∀ v a, isLabel v = true → symbols v = some a →
      (Statement.data [v]).emit symbols routines pool = .ok [a]) ∧
    (∀ vs us ws xs, (Statement.data vs).emit symbols routines pool = .ok ws →
      (Statement.data us).emit symbols routines pool = .ok xs →
      (Statement.data (vs ++ us)).emit symbols routines pool = .ok (ws ++ xs)) ∧
    (∀ buf len b l, resolveAdr symbols pool buf = .ok b → resolveAdr symbols pool len = .ok l →
      (Statement.service 0xFFF0 buf len).emit symbols routines pool = .ok (encodeAll (macroIn b l)) ∧
      (Statement.service 0xFFF2 buf len).emit symbols routines pool = .ok (encodeAll (macroOut b l))) ∧
    Statement.pushAll.emit symbols routines pool = .ok (encodeAll macroRpush) ∧
    Statement.popAll.emit symbols routines pool = .ok (encodeAll macroRpop)

/-- 30_encoding.md R89 (decision D23): the address counter advances by the words a statement emits,
whatever values its names turn out to have. -/
def Obligations.AddressCounterCountsEmittedWords : Prop :=
  ∀ (st : Statement) (symbols routines pool : List Char → Option Word) (ws : List Word),
    st.emit symbols routines pool = .ok ws → st.size = .ok ws.length

/-- The words of lines of a placed block. -/
def Sys2Proof.Spec.lineWords (p : Placed) (routines : NameTable) (ls : List Line) : Except AsmError (List Word) :=
  concatWords (fun l : Line => l.statement.emit p.symbols.find routines.find p.pool.find) ls

/-- 30_encoding.md R89, R90 (decision D23): a block's words are those of its lines and, right after them,
its literal pool in LIFO order, a shared literal in the place of its first use (the model's choice, log
entry 27); a line's label is the address of the line's first word; and in an image each block's words stand
at the address the block was laid out from, with no holes. -/
def Obligations.ImageIsContiguous : Prop :=
  (∀ (b : Block) (a : Nat) (p : Placed) (routines : NameTable) (ws : List Word),
    b.place a = .ok p → p.words routines = .ok ws →
    p.first = a ∧ a + ws.length = p.stop ∧
    (∃ lines pool, ws = lines ++ pool ∧ lineWords p routines b.lines = .ok lines ∧
      a + lines.length = p.poolFirst ∧
      concatWords literalWords (poolEntries b.literals).reverse = .ok pool) ∧
    ∀ (before after : List Line) (l : Line) (name : List Char), b.lines = before ++ l :: after →
      l.label = some name → ∃ lines, lineWords p routines before = .ok lines ∧
        p.symbols.find name = some (BitVec.ofNat 16 (a + lines.length))) ∧
  ∀ (a : Nat) (bs : List Block) (ps : List Placed) (routines : NameTable) (image : List Word),
    placeBlocks a bs = .ok ps → concatWords (Placed.words routines) ps = .ok image →
    ∀ (before after : List Placed) (p : Placed), ps = before ++ p :: after →
      ∃ front ws rest, image = front ++ (ws ++ rest) ∧ p.words routines = .ok ws ∧
        p.first = a + front.length
end

