-- ==== Sys2Proof/Laws/Decode.lean ====
section
/-! SUPPORT. The fields of a packed first word are the fields it was packed from (R71, R73). -/

namespace Sys2Proof

@[simp] theorem opOf_packWord (op : BitVec 8) (gr xr : Field) : opOf (packWord op gr xr) = op := by
  unfold opOf packWord
  ext i h
  have h1 : 8 + i < 16 := by omega
  have h4 : 4 ≤ 8 + i - 4 := by omega
  have h5 : 4 ≤ 8 + i := by omega
  simp [h, h1, BitVec.getLsbD_of_ge gr _ h4, BitVec.getLsbD_of_ge xr _ h5]

@[simp] theorem grOf_packWord (op : BitVec 8) (gr xr : Field) : grOf (packWord op gr xr) = gr := by
  unfold grOf packWord
  ext i h
  have h1 : 4 + i < 16 := by omega
  have h2 : 4 + i < 8 := by omega
  simp [h, h1, h2]

@[simp] theorem xrOf_packWord (op : BitVec 8) (gr xr : Field) : xrOf (packWord op gr xr) = xr := by
  unfold xrOf packWord
  ext i h
  have h2 : i < 8 := by omega
  have h3 : i < 16 := by omega
  simp [h, h2, h3]

/-- A word is packed from its own fields. -/
theorem packWord_fields (w : Word) : packWord (opOf w) (grOf w) (xrOf w) = w := by
  unfold packWord opOf grOf xrOf
  ext i h
  by_cases h4 : i < 4
  · have h8 : i < 8 := by omega
    simp [h, h4, h8]
  · by_cases h8 : i < 8
    · have e : i - 4 < 4 := by omega
      have e' : 4 + (i - 4) = i := by omega
      simp [h, h4, h8, e, e']
    · have e : i - 8 < 8 := by omega
      have e' : 8 + (i - 8) = i := by omega
      have e4 : ¬ i - 4 < 4 := by omega
      simp [h, h4, h8, e, e', e4]

end Sys2Proof
end

