-- ==== Sys2Proof/Laws/State.lean ====
section
/-! SUPPORT. One lemma for each field of State under each update, and for each reader under the updates it
does not see, so that no proof unfolds a record update. -/

namespace Sys2Proof.Machine

variable (s : State)

/-! ### writeMem -/

@[simp] theorem State.writeMem_gr (a v : Word) : (s.writeMem a v).gr = s.gr := rfl
@[simp] theorem State.writeMem_pr (a v : Word) : (s.writeMem a v).pr = s.pr := rfl
@[simp] theorem State.writeMem_sp (a v : Word) : (s.writeMem a v).sp = s.sp := rfl
@[simp] theorem State.writeMem_fr (a v : Word) : (s.writeMem a v).fr = s.fr := rfl
@[simp] theorem State.writeMem_mem (a v : Word) : (s.writeMem a v).mem = Memory.write s.mem a.toNat v := rfl
@[simp] theorem State.writeMem_status (a v : Word) : (s.writeMem a v).status = s.status := rfl
@[simp] theorem State.writeMem_input (a v : Word) : (s.writeMem a v).input = s.input := rfl
@[simp] theorem State.writeMem_freeReads (a v : Word) : (s.writeMem a v).freeReads = s.freeReads := rfl
@[simp] theorem State.writeMem_output (a v : Word) : (s.writeMem a v).output = s.output := rfl

/-! ### writeGr -/

@[simp] theorem State.writeGr_gr (r : Reg) (v : Word) : (s.writeGr r v).gr = s.gr.set r v := rfl
@[simp] theorem State.writeGr_pr (r : Reg) (v : Word) : (s.writeGr r v).pr = s.pr := rfl
@[simp] theorem State.writeGr_sp (r : Reg) (v : Word) : (s.writeGr r v).sp = s.sp := rfl
@[simp] theorem State.writeGr_fr (r : Reg) (v : Word) : (s.writeGr r v).fr = s.fr := rfl
@[simp] theorem State.writeGr_mem (r : Reg) (v : Word) : (s.writeGr r v).mem = s.mem := rfl
@[simp] theorem State.writeGr_status (r : Reg) (v : Word) : (s.writeGr r v).status = s.status := rfl
@[simp] theorem State.writeGr_input (r : Reg) (v : Word) : (s.writeGr r v).input = s.input := rfl
@[simp] theorem State.writeGr_freeReads (r : Reg) (v : Word) : (s.writeGr r v).freeReads = s.freeReads := rfl
@[simp] theorem State.writeGr_output (r : Reg) (v : Word) : (s.writeGr r v).output = s.output := rfl

/-! ### setPr -/

@[simp] theorem State.setPr_gr (v : Word) : (s.setPr v).gr = s.gr := rfl
@[simp] theorem State.setPr_pr (v : Word) : (s.setPr v).pr = v := rfl
@[simp] theorem State.setPr_sp (v : Word) : (s.setPr v).sp = s.sp := rfl
@[simp] theorem State.setPr_fr (v : Word) : (s.setPr v).fr = s.fr := rfl
@[simp] theorem State.setPr_mem (v : Word) : (s.setPr v).mem = s.mem := rfl
@[simp] theorem State.setPr_status (v : Word) : (s.setPr v).status = s.status := rfl
@[simp] theorem State.setPr_input (v : Word) : (s.setPr v).input = s.input := rfl
@[simp] theorem State.setPr_freeReads (v : Word) : (s.setPr v).freeReads = s.freeReads := rfl
@[simp] theorem State.setPr_output (v : Word) : (s.setPr v).output = s.output := rfl

/-! ### setSp -/

@[simp] theorem State.setSp_gr (v : Word) : (s.setSp v).gr = s.gr := rfl
@[simp] theorem State.setSp_pr (v : Word) : (s.setSp v).pr = s.pr := rfl
@[simp] theorem State.setSp_sp (v : Word) : (s.setSp v).sp = v := rfl
@[simp] theorem State.setSp_fr (v : Word) : (s.setSp v).fr = s.fr := rfl
@[simp] theorem State.setSp_mem (v : Word) : (s.setSp v).mem = s.mem := rfl
@[simp] theorem State.setSp_status (v : Word) : (s.setSp v).status = s.status := rfl
@[simp] theorem State.setSp_input (v : Word) : (s.setSp v).input = s.input := rfl
@[simp] theorem State.setSp_freeReads (v : Word) : (s.setSp v).freeReads = s.freeReads := rfl
@[simp] theorem State.setSp_output (v : Word) : (s.setSp v).output = s.output := rfl

/-! ### setFr -/

@[simp] theorem State.setFr_gr (v : BitVec 3) : (s.setFr v).gr = s.gr := rfl
@[simp] theorem State.setFr_pr (v : BitVec 3) : (s.setFr v).pr = s.pr := rfl
@[simp] theorem State.setFr_sp (v : BitVec 3) : (s.setFr v).sp = s.sp := rfl
@[simp] theorem State.setFr_fr (v : BitVec 3) : (s.setFr v).fr = v := rfl
@[simp] theorem State.setFr_mem (v : BitVec 3) : (s.setFr v).mem = s.mem := rfl
@[simp] theorem State.setFr_status (v : BitVec 3) : (s.setFr v).status = s.status := rfl
@[simp] theorem State.setFr_input (v : BitVec 3) : (s.setFr v).input = s.input := rfl
@[simp] theorem State.setFr_freeReads (v : BitVec 3) : (s.setFr v).freeReads = s.freeReads := rfl
@[simp] theorem State.setFr_output (v : BitVec 3) : (s.setFr v).output = s.output := rfl

/-! ### setStatus -/

@[simp] theorem State.setStatus_gr (v : RunStatus) : (s.setStatus v).gr = s.gr := rfl
@[simp] theorem State.setStatus_pr (v : RunStatus) : (s.setStatus v).pr = s.pr := rfl
@[simp] theorem State.setStatus_sp (v : RunStatus) : (s.setStatus v).sp = s.sp := rfl
@[simp] theorem State.setStatus_fr (v : RunStatus) : (s.setStatus v).fr = s.fr := rfl
@[simp] theorem State.setStatus_mem (v : RunStatus) : (s.setStatus v).mem = s.mem := rfl
@[simp] theorem State.setStatus_status (v : RunStatus) : (s.setStatus v).status = v := rfl
@[simp] theorem State.setStatus_input (v : RunStatus) : (s.setStatus v).input = s.input := rfl
@[simp] theorem State.setStatus_freeReads (v : RunStatus) : (s.setStatus v).freeReads = s.freeReads := rfl
@[simp] theorem State.setStatus_output (v : RunStatus) : (s.setStatus v).output = s.output := rfl

/-! ### advance -/

@[simp] theorem State.advance_gr (n : Nat) : (s.advance n).gr = s.gr := rfl
@[simp] theorem State.advance_pr (n : Nat) : (s.advance n).pr = s.pr + BitVec.ofNat 16 n := rfl
@[simp] theorem State.advance_sp (n : Nat) : (s.advance n).sp = s.sp := rfl
@[simp] theorem State.advance_fr (n : Nat) : (s.advance n).fr = s.fr := rfl
@[simp] theorem State.advance_mem (n : Nat) : (s.advance n).mem = s.mem := rfl
@[simp] theorem State.advance_status (n : Nat) : (s.advance n).status = s.status := rfl
@[simp] theorem State.advance_input (n : Nat) : (s.advance n).input = s.input := rfl
@[simp] theorem State.advance_freeReads (n : Nat) : (s.advance n).freeReads = s.freeReads := rfl
@[simp] theorem State.advance_output (n : Nat) : (s.advance n).output = s.output := rfl

/-! ### pushWord -/

@[simp] theorem State.pushWord_gr (v : Word) : (s.pushWord v).gr = s.gr := rfl
@[simp] theorem State.pushWord_pr (v : Word) : (s.pushWord v).pr = s.pr := rfl
@[simp] theorem State.pushWord_sp (v : Word) : (s.pushWord v).sp = s.sp - 1#16 := rfl
@[simp] theorem State.pushWord_fr (v : Word) : (s.pushWord v).fr = s.fr := rfl
@[simp] theorem State.pushWord_mem (v : Word) : (s.pushWord v).mem = Memory.write s.mem (s.sp - 1#16).toNat v := rfl
@[simp] theorem State.pushWord_status (v : Word) : (s.pushWord v).status = s.status := rfl
@[simp] theorem State.pushWord_input (v : Word) : (s.pushWord v).input = s.input := rfl
@[simp] theorem State.pushWord_freeReads (v : Word) : (s.pushWord v).freeReads = s.freeReads := rfl
@[simp] theorem State.pushWord_output (v : Word) : (s.pushWord v).output = s.output := rfl

/-! ### dropWord -/

@[simp] theorem State.dropWord_gr : (s.dropWord).gr = s.gr := rfl
@[simp] theorem State.dropWord_pr : (s.dropWord).pr = s.pr := rfl
@[simp] theorem State.dropWord_sp : (s.dropWord).sp = s.sp + 1#16 := rfl
@[simp] theorem State.dropWord_fr : (s.dropWord).fr = s.fr := rfl
@[simp] theorem State.dropWord_mem : (s.dropWord).mem = s.mem := rfl
@[simp] theorem State.dropWord_status : (s.dropWord).status = s.status := rfl
@[simp] theorem State.dropWord_input : (s.dropWord).input = s.input := rfl
@[simp] theorem State.dropWord_freeReads : (s.dropWord).freeReads = s.freeReads := rfl
@[simp] theorem State.dropWord_output : (s.dropWord).output = s.output := rfl

/-! ### hostOut -/

@[simp] theorem State.hostOut_gr (bs : List Byte) : (s.hostOut bs).gr = s.gr := rfl
@[simp] theorem State.hostOut_pr (bs : List Byte) : (s.hostOut bs).pr = s.pr := rfl
@[simp] theorem State.hostOut_sp (bs : List Byte) : (s.hostOut bs).sp = s.sp := rfl
@[simp] theorem State.hostOut_fr (bs : List Byte) : (s.hostOut bs).fr = s.fr := rfl
@[simp] theorem State.hostOut_mem (bs : List Byte) : (s.hostOut bs).mem = s.mem := rfl
@[simp] theorem State.hostOut_status (bs : List Byte) : (s.hostOut bs).status = s.status := rfl
@[simp] theorem State.hostOut_input (bs : List Byte) : (s.hostOut bs).input = s.input := rfl
@[simp] theorem State.hostOut_freeReads (bs : List Byte) : (s.hostOut bs).freeReads = s.freeReads := rfl
@[simp] theorem State.hostOut_output (bs : List Byte) : (s.hostOut bs).output = s.output ++ bs := rfl

/-! ### finishAlu -/

@[simp] theorem State.finishAlu_gr (r : Reg) (out : Word × BitVec 3) (n : Nat) : (s.finishAlu r out n).gr = s.gr.set r out.1 := rfl
@[simp] theorem State.finishAlu_pr (r : Reg) (out : Word × BitVec 3) (n : Nat) : (s.finishAlu r out n).pr = s.pr + BitVec.ofNat 16 n := rfl
@[simp] theorem State.finishAlu_sp (r : Reg) (out : Word × BitVec 3) (n : Nat) : (s.finishAlu r out n).sp = s.sp := rfl
@[simp] theorem State.finishAlu_fr (r : Reg) (out : Word × BitVec 3) (n : Nat) : (s.finishAlu r out n).fr = out.2 := rfl
@[simp] theorem State.finishAlu_mem (r : Reg) (out : Word × BitVec 3) (n : Nat) : (s.finishAlu r out n).mem = s.mem := rfl
@[simp] theorem State.finishAlu_status (r : Reg) (out : Word × BitVec 3) (n : Nat) : (s.finishAlu r out n).status = s.status := rfl
@[simp] theorem State.finishAlu_input (r : Reg) (out : Word × BitVec 3) (n : Nat) : (s.finishAlu r out n).input = s.input := rfl
@[simp] theorem State.finishAlu_freeReads (r : Reg) (out : Word × BitVec 3) (n : Nat) : (s.finishAlu r out n).freeReads = s.freeReads := rfl
@[simp] theorem State.finishAlu_output (r : Reg) (out : Word × BitVec 3) (n : Nat) : (s.finishAlu r out n).output = s.output := rfl

/-! ### supplyLine -/

@[simp] theorem State.supplyLine_gr (l : List Byte) : (s.supplyLine l).gr = s.gr := rfl
@[simp] theorem State.supplyLine_pr (l : List Byte) : (s.supplyLine l).pr = s.pr := rfl
@[simp] theorem State.supplyLine_sp (l : List Byte) : (s.supplyLine l).sp = s.sp := rfl
@[simp] theorem State.supplyLine_fr (l : List Byte) : (s.supplyLine l).fr = s.fr := rfl
@[simp] theorem State.supplyLine_mem (l : List Byte) : (s.supplyLine l).mem = s.mem := rfl
@[simp] theorem State.supplyLine_status (l : List Byte) : (s.supplyLine l).status = s.status := rfl
@[simp] theorem State.supplyLine_input (l : List Byte) : (s.supplyLine l).input = s.input ++ [l] := rfl
@[simp] theorem State.supplyLine_freeReads (l : List Byte) : (s.supplyLine l).freeReads = s.freeReads := rfl
@[simp] theorem State.supplyLine_output (l : List Byte) : (s.supplyLine l).output = s.output := rfl

/-! ### Readers -/

theorem State.readGr_of_gr (s t : State) (h : s.gr = t.gr) (r : Reg) : s.readGr r = t.readGr r := by
  simp [State.readGr, h]

theorem State.readMem_of_mem (s t : State) (h : s.mem = t.mem) (a : Word) : s.readMem a = t.readMem a := by
  simp [State.readMem, h]

/-- Reading a register after writing one (R20: none is hard-wired). -/
theorem State.readGr_writeGr (r q : Reg) (v : Word) :
    (s.writeGr r v).readGr q = if r = q then v else s.readGr q := by
  unfold State.readGr State.writeGr
  simp [Vector.getElem_set, Fin.ext_iff]

@[simp] theorem State.readGr_writeGr_same (r : Reg) (v : Word) : (s.writeGr r v).readGr r = v := by
  simp [State.readGr_writeGr]

@[simp] theorem State.readGr_writeMem (a v : Word) (r : Reg) : (s.writeMem a v).readGr r = s.readGr r := rfl
@[simp] theorem State.readGr_setPr (v : Word) (r : Reg) : (s.setPr v).readGr r = s.readGr r := rfl
@[simp] theorem State.readGr_setSp (v : Word) (r : Reg) : (s.setSp v).readGr r = s.readGr r := rfl
@[simp] theorem State.readGr_setFr (v : BitVec 3) (r : Reg) : (s.setFr v).readGr r = s.readGr r := rfl
@[simp] theorem State.readGr_setStatus (v : RunStatus) (r : Reg) :
    (s.setStatus v).readGr r = s.readGr r := rfl
@[simp] theorem State.readMem_writeGr (q : Reg) (v a : Word) : (s.writeGr q v).readMem a = s.readMem a := rfl
@[simp] theorem State.readMem_setPr (v a : Word) : (s.setPr v).readMem a = s.readMem a := rfl
@[simp] theorem State.readMem_setSp (v a : Word) : (s.setSp v).readMem a = s.readMem a := rfl
@[simp] theorem State.readMem_setFr (v : BitVec 3) (a : Word) : (s.setFr v).readMem a = s.readMem a := rfl
@[simp] theorem State.readMem_setStatus (v : RunStatus) (a : Word) :
    (s.setStatus v).readMem a = s.readMem a := rfl
@[simp] theorem effectiveAddress_setFr (v : BitVec 3) (xr : Field) (adr : Word) :
    effectiveAddress (s.setFr v) xr adr = effectiveAddress s xr adr := rfl
@[simp] theorem effectiveAddress_setPr (v : Word) (xr : Field) (adr : Word) :
    effectiveAddress (s.setPr v) xr adr = effectiveAddress s xr adr := rfl

end Sys2Proof.Machine
end

