-- ==== Sys2Proof/Laws/Memory.lean ====
section
/-! SUPPORT. The memory laws: a read after a write, and that every operation keeps the canonical form, so
that equal memories are equal data. -/

namespace Sys2Proof.Machine

@[simp] theorem Memory.read_nil (a : Nat) : Memory.read [] a = Config.unwritten := rfl

theorem Memory.read_cons (k : Nat) (v : Word) (m : Memory) (a : Nat) :
    Memory.read ((k, v) :: m) a = if k = a then v else Memory.read m a := rfl

theorem Memory.read_cell_append (a : Nat) (v : Word) (m : Memory) (b : Nat) :
    Memory.read (Memory.cell a v ++ m) b =
      if a = b ∧ v ≠ Config.unwritten then v else Memory.read m b := by
  unfold Memory.cell
  split <;> simp_all [Memory.read_cons]

/-- Below every listed address, memory reads as an unlisted one. -/
theorem Memory.read_below (m : Memory) (a : Nat) (h : ∀ c ∈ m, a < c.1) :
    Memory.read m a = Config.unwritten := by
  induction m with
  | nil => rfl
  | cons c m ih =>
    have hc := h c (by simp)
    rw [show c = (c.1, c.2) from rfl, Memory.read_cons, if_neg (by omega)]
    exact ih fun d hd => h d (by simp [hd])

/-- A write leaves every other address alone, in any memory. -/
theorem Memory.read_write_other (m : Memory) (a b : Nat) (v : Word) (h : a ≠ b) :
    Memory.read (Memory.write m a v) b = Memory.read m b := by
  induction m with
  | nil =>
    have := Memory.read_cell_append a v [] b
    simpa [Memory.write, h] using this
  | cons c m ih =>
    obtain ⟨k, w⟩ := c
    unfold Memory.write
    split
    · simp [Memory.read_cell_append, h]
    · split
      · subst a
        simp [Memory.read_cell_append, Memory.read_cons, h]
      · simp [Memory.read_cons, ih]

/-- What the canonical form says, as propositions. -/
theorem Memory.wf_iff (m : Memory) :
    Memory.wf m = true ↔ m.Pairwise (fun c d => c.1 < d.1) ∧
      ∀ c ∈ m, c.1 < Config.memWords ∧ c.2 ≠ Config.unwritten := by
  simp [Memory.wf, List.all_eq_true]

theorem Memory.wf_nil : Memory.wf [] = true := by decide

/-- The canonical form of a list with a first cell. -/
theorem Memory.wf_cons (k : Nat) (v : Word) (m : Memory) :
    Memory.wf ((k, v) :: m) = true ↔
      k < Config.memWords ∧ v ≠ Config.unwritten ∧ (∀ c ∈ m, k < c.1) ∧ Memory.wf m = true := by
  simp only [Memory.wf_iff, List.pairwise_cons, List.mem_cons, forall_eq_or_imp]
  tauto

/-- A cell before a canonical memory of higher addresses keeps the form. -/
theorem Memory.wf_cell_append (a : Nat) (v : Word) (m : Memory) (ha : a < Config.memWords)
    (hlow : ∀ c ∈ m, a < c.1) (hm : Memory.wf m = true) : Memory.wf (Memory.cell a v ++ m) = true := by
  unfold Memory.cell
  split
  · simpa using hm
  · exact (Memory.wf_cons a v m).2 ⟨ha, ‹_›, hlow, hm⟩

/-- A cell of a written memory is the written address or was listed before. -/
theorem Memory.mem_write (m : Memory) (a : Nat) (v : Word) (c : Nat × Word)
    (h : c ∈ Memory.write m a v) : c.1 = a ∨ c ∈ m := by
  have hcell : ∀ c ∈ Memory.cell a v, c.1 = a := by
    unfold Memory.cell; split <;> simp
  induction m with
  | nil => exact .inl (hcell c (by simpa [Memory.write] using h))
  | cons d m ih =>
    obtain ⟨k, w⟩ := d
    unfold Memory.write at h
    split at h
    · rcases List.mem_append.1 h with h | h
      · exact .inl (hcell c h)
      · exact .inr h
    · split at h
      · rcases List.mem_append.1 h with h | h
        · exact .inl (hcell c h)
        · exact .inr (List.mem_cons_of_mem _ h)
      · rcases List.mem_cons.1 h with h | h
        · exact .inr (by simp [h])
        · exact (ih h).imp id (List.mem_cons_of_mem _)

/-- A write keeps the canonical form. -/
theorem Memory.wf_write (m : Memory) (a : Nat) (v : Word) (ha : a < Config.memWords)
    (hm : Memory.wf m = true) : Memory.wf (Memory.write m a v) = true := by
  induction m with
  | nil => simpa [Memory.write] using Memory.wf_cell_append a v [] ha (by simp) Memory.wf_nil
  | cons d m ih =>
    obtain ⟨k, w⟩ := d
    obtain ⟨hk, hw, hlow, hrest⟩ := (Memory.wf_cons k w m).1 hm
    unfold Memory.write
    split
    · rename_i hak
      refine Memory.wf_cell_append a v _ ha ?_ hm
      intro c hc
      rcases List.mem_cons.1 hc with rfl | hc
      · exact hak
      · have := hlow c hc; omega
    · split
      · rename_i hak
        exact Memory.wf_cell_append a v m ha (fun c hc => by have := hlow c hc; omega) hrest
      · refine (Memory.wf_cons _ _ _).2 ⟨hk, hw, ?_, ih hrest⟩
        intro c hc
        rcases Memory.mem_write m a v c hc with h | h
        · omega
        · exact hlow c h

/-- A canonical memory reads back what was written. -/
theorem Memory.read_write_same (m : Memory) (a : Nat) (v : Word) (hm : Memory.wf m = true) :
    Memory.read (Memory.write m a v) a = v := by
  have hcell : ∀ m' : Memory, (∀ c ∈ m', a < c.1) → Memory.read (Memory.cell a v ++ m') a = v := by
    intro m' h
    rw [Memory.read_cell_append]
    split
    · rfl
    · simp_all [Memory.read_below m' a h]
  induction m with
  | nil => simpa [Memory.write] using hcell [] (by simp)
  | cons d m ih =>
    obtain ⟨k, w⟩ := d
    obtain ⟨-, -, hlow, hrest⟩ := (Memory.wf_cons k w m).1 hm
    unfold Memory.write
    split
    · rename_i hak
      refine hcell _ fun c hc => ?_
      rcases List.mem_cons.1 hc with rfl | hc
      · exact hak
      · have := hlow c hc; omega
    · split
      · exact hcell m fun c hc => by have := hlow c hc; omega
      · rename_i h1 h2
        rw [Memory.read_cons, if_neg (by omega), ih hrest]

/-- The address of a word is inside memory. -/
theorem toNat_lt_memWords (a : Word) : a.toNat < Config.memWords := a.isLt

/-- R8 `MemRead` after `MemWrite`, another address. -/
theorem State.readMem_writeMem_other (s : State) (a b v : Word) (h : a ≠ b) :
    (s.writeMem a v).readMem b = s.readMem b :=
  Memory.read_write_other _ _ _ _ fun e => h (BitVec.eq_of_toNat_eq e)

/-- R8 `MemRead` after `MemWrite`, the same address. -/
theorem State.readMem_writeMem_same (s : State) (a v : Word) (hs : Memory.wf s.mem = true) :
    (s.writeMem a v).readMem a = v :=
  Memory.read_write_same _ _ _ hs

/-- A store keeps the canonical form. -/
theorem State.wf_writeMem (s : State) (a v : Word) (hs : Memory.wf s.mem = true) :
    Memory.wf (s.writeMem a v).mem = true :=
  Memory.wf_write _ _ _ (toNat_lt_memWords a) hs

/-- A push keeps the canonical form. -/
theorem State.wf_pushWord (s : State) (v : Word) (hs : Memory.wf s.mem = true) :
    Memory.wf (s.pushWord v).mem = true :=
  Memory.wf_write _ _ _ (toNat_lt_memWords _) hs

/-- The cells of an image lie at or after its first address. -/
theorem imageMemory_ge (a : Nat) (ws : List Word) : ∀ c ∈ imageMemory a ws, a ≤ c.1 := by
  induction ws generalizing a with
  | nil => simp [imageMemory]
  | cons w ws ih =>
    intro c hc
    rcases List.mem_append.1 hc with h | h
    · unfold Memory.cell at h
      split at h <;> simp_all
    · have := ih (a + 1) c h; omega

/-- The memory of an image that fits is in canonical form. -/
theorem wf_imageMemory (a : Nat) (ws : List Word) (h : a + ws.length ≤ Config.memWords) :
    Memory.wf (imageMemory a ws) = true := by
  induction ws generalizing a with
  | nil => exact Memory.wf_nil
  | cons w ws ih =>
    simp only [List.length_cons] at h
    refine Memory.wf_cell_append a w _ (by omega) (fun c hc => ?_) (ih (a + 1) (by omega))
    have := imageMemory_ge (a + 1) ws c hc
    omega

/-- The memory of an image reads as the image, and as unwritten outside it. -/
theorem read_imageMemory (a b : Nat) (ws : List Word) :
    Memory.read (imageMemory a ws) b =
      if a ≤ b then ws.getD (b - a) Config.unwritten else Config.unwritten := by
  induction ws generalizing a with
  | nil => simp [imageMemory]
  | cons w ws ih =>
    rw [imageMemory, Memory.read_cell_append, ih]
    by_cases hab : a = b
    · subst hab
      by_cases hw : w = Config.unwritten <;> simp [hw]
    · by_cases hle : a ≤ b
      · rw [if_neg (by tauto), if_pos (by omega), if_pos hle,
          show b - a = (b - (a + 1)) + 1 by omega, List.getD_cons_succ]
      · rw [if_neg (by tauto), if_neg (by omega), if_neg hle]

end Sys2Proof.Machine
end

