-- ==== Sys2Proof/Laws/Ops.lean ====
section
/-! SUPPORT. One lemma for each shared operation that says everything it can do; later proofs cite these
and do not unfold the operation. -/

namespace Sys2Proof.Machine

/-! ## Register fields -/

theorem withRegister_of_lt (f : Field) (s : State) (use : Reg → Result) (h : f.toNat < 8) :
    withRegister f s use = use ⟨f.toNat, h⟩ := by
  simp [withRegister, h]

theorem withRegister_of_ge (f : Field) (s : State) (use : Reg → Result) (h : 8 ≤ f.toNat) :
    withRegister f s use = illegalInstruction s := by
  simp [withRegister, Nat.not_lt.2 h]

/-- A register field either names a register, which is used, or raises the exception. -/
theorem withRegister_next (f : Field) (s t : State) (use : Reg → Result)
    (h : withRegister f s use = .next t) :
    (∃ hf : f.toNat < 8, use ⟨f.toNat, hf⟩ = .next t) ∨
      (8 ≤ f.toNat ∧ t = s.setStatus (.illegal s.pr (s.readMem s.pr))) := by
  by_cases hf : f.toNat < 8
  · rw [withRegister_of_lt f s use hf] at h
    exact .inl ⟨hf, h⟩
  · rw [withRegister_of_ge f s use (by omega), illegalInstruction] at h
    exact .inr ⟨by omega, by cases h; rfl⟩

/-! ## The effective address -/

theorem effectiveAddress_indexed (s : State) (xr : Field) (adr : Word) (h1 : 1 ≤ xr.toNat)
    (h7 : xr.toNat ≤ 7) : effectiveAddress s xr adr = adr + s.readGr ⟨xr.toNat, by omega⟩ := by
  simp [effectiveAddress, indexRegister, h1, h7]

theorem effectiveAddress_plain (s : State) (xr : Field) (adr : Word)
    (h : ¬ (1 ≤ xr.toNat ∧ xr.toNat ≤ 7)) : effectiveAddress s xr adr = adr := by
  simp only [effectiveAddress, indexRegister, dif_neg h]

theorem effectiveAddress_of_gr (s t : State) (xr : Field) (adr : Word) (h : s.gr = t.gr) :
    effectiveAddress s xr adr = effectiveAddress t xr adr := by
  unfold effectiveAddress
  split <;> simp [State.readGr, h]

/-! ## The forms: what each can answer -/

theorem aluMemory_next (f : Alu) (gr xr : Field) (adr : Word) (s t : State)
    (h : aluMemory f gr xr adr s = .next t) :
    (∃ hf : gr.toNat < 8, t = s.finishAlu ⟨gr.toNat, hf⟩
        (f (s.readGr ⟨gr.toNat, hf⟩) (s.readMem (effectiveAddress s xr adr))) 2) ∨
      (8 ≤ gr.toNat ∧ t = s.setStatus (.illegal s.pr (s.readMem s.pr))) := by
  rcases withRegister_next _ _ _ _ h with ⟨hf, h⟩ | h
  · exact .inl ⟨hf, by cases h; rfl⟩
  · exact .inr h

theorem aluRegister_next (f : Alu) (r1 r2 : Field) (s t : State)
    (h : aluRegister f r1 r2 s = .next t) :
    (∃ (h1 : r1.toNat < 8) (h2 : r2.toNat < 8), t = s.finishAlu ⟨r1.toNat, h1⟩
        (f (s.readGr ⟨r1.toNat, h1⟩) (s.readGr ⟨r2.toNat, h2⟩)) 1) ∨
      ((8 ≤ r1.toNat ∨ 8 ≤ r2.toNat) ∧ t = s.setStatus (.illegal s.pr (s.readMem s.pr))) := by
  rcases withRegister_next _ _ _ _ h with ⟨h1, h⟩ | ⟨h1, h⟩
  · rcases withRegister_next _ _ _ _ h with ⟨h2, h⟩ | ⟨h2, h⟩
    · exact .inl ⟨h1, h2, by cases h; rfl⟩
    · exact .inr ⟨.inr h2, h⟩
  · exact .inr ⟨.inl h1, h⟩

theorem compareMemory_next (f : Word → Word → BitVec 3) (gr xr : Field) (adr : Word) (s t : State)
    (h : compareMemory f gr xr adr s = .next t) :
    (∃ hf : gr.toNat < 8, t = (s.setFr (f (s.readGr ⟨gr.toNat, hf⟩)
        (s.readMem (effectiveAddress s xr adr)))).advance 2) ∨
      (8 ≤ gr.toNat ∧ t = s.setStatus (.illegal s.pr (s.readMem s.pr))) := by
  rcases withRegister_next _ _ _ _ h with ⟨hf, h⟩ | h
  · exact .inl ⟨hf, by cases h; rfl⟩
  · exact .inr h

theorem compareRegister_next (f : Word → Word → BitVec 3) (r1 r2 : Field) (s t : State)
    (h : compareRegister f r1 r2 s = .next t) :
    (∃ (h1 : r1.toNat < 8) (h2 : r2.toNat < 8), t = (s.setFr (f (s.readGr ⟨r1.toNat, h1⟩)
        (s.readGr ⟨r2.toNat, h2⟩))).advance 1) ∨
      ((8 ≤ r1.toNat ∨ 8 ≤ r2.toNat) ∧ t = s.setStatus (.illegal s.pr (s.readMem s.pr))) := by
  rcases withRegister_next _ _ _ _ h with ⟨h1, h⟩ | ⟨h1, h⟩
  · rcases withRegister_next _ _ _ _ h with ⟨h2, h⟩ | ⟨h2, h⟩
    · exact .inl ⟨h1, h2, by cases h; rfl⟩
    · exact .inr ⟨.inr h2, h⟩
  · exact .inr ⟨.inl h1, h⟩

theorem shiftBy_next (f : Word → Nat → Word × BitVec 3) (gr xr : Field) (adr : Word) (s t : State)
    (h : shiftBy f gr xr adr s = .next t) :
    (∃ hf : gr.toNat < 8, t = s.finishAlu ⟨gr.toNat, hf⟩
        (f (s.readGr ⟨gr.toNat, hf⟩) (effectiveAddress s xr adr).toNat) 2) ∨
      (8 ≤ gr.toNat ∧ t = s.setStatus (.illegal s.pr (s.readMem s.pr))) := by
  rcases withRegister_next _ _ _ _ h with ⟨hf, h⟩ | h
  · exact .inl ⟨hf, by cases h; rfl⟩
  · exact .inr h

theorem jumpWhen_next (taken : Bool) (xr : Field) (adr : Word) (s t : State)
    (h : jumpWhen taken xr adr s = .next t) :
    (taken = true ∧ t = s.setPr (effectiveAddress s xr adr)) ∨ (taken = false ∧ t = s.advance 2) := by
  cases taken <;> simp_all [jumpWhen]

/-! ## Flags -/

/-- `flagsOf` gives one of plus, minus and zero (R28). -/
theorem flagsOf_cases (v : Word) : flagsOf v = 0b000#3 ∨ flagsOf v = 0b010#3 ∨ flagsOf v = 0b001#3 := by
  unfold flagsOf
  split
  · simp
  · split <;> simp

/-- What an instruction writes to FR is a value R33 allows. -/
theorem legalFr_frOf (overflow : Bool) (v : Word) : legalFr (frOf overflow v) = true := by
  unfold frOf
  rcases flagsOf_cases v with h | h | h <;> rw [h] <;> cases overflow <;> decide

/-! ## The host I/O channel -/

theorem hostIn_queued (s : State) (line : List Byte) (rest : List (List Byte))
    (h : s.input = line :: rest) : s.hostIn = (line, { s with input := rest }) := by
  simp [State.hostIn, h]

theorem hostIn_free (s : State) (h : s.input = []) :
    s.hostIn = (Config.hostLine s.freeReads, { s with freeReads := s.freeReads + 1 }) := by
  simp [State.hostIn, h]

@[simp] theorem hostIn_gr (s : State) : s.hostIn.2.gr = s.gr := by unfold State.hostIn; split <;> rfl
@[simp] theorem hostIn_pr (s : State) : s.hostIn.2.pr = s.pr := by unfold State.hostIn; split <;> rfl
@[simp] theorem hostIn_sp (s : State) : s.hostIn.2.sp = s.sp := by unfold State.hostIn; split <;> rfl
@[simp] theorem hostIn_fr (s : State) : s.hostIn.2.fr = s.fr := by unfold State.hostIn; split <;> rfl
@[simp] theorem hostIn_mem (s : State) : s.hostIn.2.mem = s.mem := by unfold State.hostIn; split <;> rfl
@[simp] theorem hostIn_status (s : State) : s.hostIn.2.status = s.status := by
  unfold State.hostIn; split <;> rfl
@[simp] theorem hostIn_output (s : State) : s.hostIn.2.output = s.output := by
  unfold State.hostIn; split <;> rfl

section StoreBytes
variable (s : State) (a : Word) (bs : List Byte)

@[simp] theorem storeBytes_nil : s.storeBytes a [] = s := rfl
theorem storeBytes_cons (b : Byte) :
    s.storeBytes a (b :: bs) = (s.writeMem a (zext16 b)).storeBytes (a + 1#16) bs := rfl

@[simp] theorem storeBytes_gr : (s.storeBytes a bs).gr = s.gr := by
  induction bs generalizing s a with
  | nil => rfl
  | cons b bs ih => simp [storeBytes_cons, ih]
@[simp] theorem storeBytes_pr : (s.storeBytes a bs).pr = s.pr := by
  induction bs generalizing s a with
  | nil => rfl
  | cons b bs ih => simp [storeBytes_cons, ih]
@[simp] theorem storeBytes_sp : (s.storeBytes a bs).sp = s.sp := by
  induction bs generalizing s a with
  | nil => rfl
  | cons b bs ih => simp [storeBytes_cons, ih]
@[simp] theorem storeBytes_fr : (s.storeBytes a bs).fr = s.fr := by
  induction bs generalizing s a with
  | nil => rfl
  | cons b bs ih => simp [storeBytes_cons, ih]
@[simp] theorem storeBytes_status : (s.storeBytes a bs).status = s.status := by
  induction bs generalizing s a with
  | nil => rfl
  | cons b bs ih => simp [storeBytes_cons, ih]
@[simp] theorem storeBytes_input : (s.storeBytes a bs).input = s.input := by
  induction bs generalizing s a with
  | nil => rfl
  | cons b bs ih => simp [storeBytes_cons, ih]
@[simp] theorem storeBytes_freeReads : (s.storeBytes a bs).freeReads = s.freeReads := by
  induction bs generalizing s a with
  | nil => rfl
  | cons b bs ih => simp [storeBytes_cons, ih]
@[simp] theorem storeBytes_output : (s.storeBytes a bs).output = s.output := by
  induction bs generalizing s a with
  | nil => rfl
  | cons b bs ih => simp [storeBytes_cons, ih]

/-- Storing bytes keeps the canonical form. -/
theorem wf_storeBytes (h : Memory.wf s.mem = true) : Memory.wf (s.storeBytes a bs).mem = true := by
  induction bs generalizing s a with
  | nil => exact h
  | cons b bs ih => exact ih _ _ (State.wf_writeMem s a _ h)

/-- Storing bytes leaves every address outside them alone. -/
theorem readMem_storeBytes_outside (b : Word) (h : bs.length ≤ (b - a).toNat) :
    (s.storeBytes a bs).readMem b = s.readMem b := by
  induction bs generalizing s a with
  | nil => rfl
  | cons c bs ih =>
    simp only [List.length_cons] at h
    have hne : b ≠ a := by rintro rfl; simp at h
    rw [storeBytes_cons, ih _ _ (by bv_omega), State.readMem_writeMem_other _ _ _ _ (Ne.symm hne)]

/-- Stored bytes are read back, when they do not go round the whole of memory. -/
theorem readMem_storeBytes_inside (hs : Memory.wf s.mem = true) (i : Nat) (hi : i < bs.length)
    (hlen : bs.length ≤ 65536) :
    (s.storeBytes a bs).readMem (a + BitVec.ofNat 16 i) = zext16 bs[i] := by
  induction bs generalizing s a i with
  | nil => simp at hi
  | cons c bs ih =>
    simp only [List.length_cons] at hi hlen
    rw [storeBytes_cons]
    have hwf := State.wf_writeMem s a (zext16 c) hs
    cases i with
    | zero =>
      rw [readMem_storeBytes_outside _ _ _ _ (by bv_omega)]
      simpa using State.readMem_writeMem_same s a _ hs
    | succ i =>
      have := ih (s.writeMem a (zext16 c)) (a + 1#16) hwf i (by omega) (by omega)
      rw [show a + BitVec.ofNat 16 (i + 1) = a + 1#16 + BitVec.ofNat 16 i by bv_omega]
      simpa using this

end StoreBytes

/-- The bytes an output service sends, listed by offset (R173). -/
theorem loadBytes_eq (s : State) (a : Word) (n : Nat) :
    s.loadBytes a n = (List.range n).map fun i => (s.readMem (a + BitVec.ofNat 16 i)).setWidth 8 := by
  induction n generalizing a with
  | zero => rfl
  | succ n ih =>
    rw [State.loadBytes, ih, List.range_succ_eq_map, List.map_cons, List.map_map]
    congr 1
    · simp
    · refine List.map_congr_left fun i _ => ?_
      simp only [Function.comp]
      rw [show a + 1#16 + BitVec.ofNat 16 i = a + BitVec.ofNat 16 (i + 1) by bv_omega]

end Sys2Proof.Machine
end

