-- ==== Sys2Proof/Laws/Exec.lean ====
section
/-! SUPPORT. Each instruction as the shared operation it is, and the frames of the host services: with
these and the lemmas of Laws/Ops.lean no proof unfolds `exec` or a meaning. -/

namespace Sys2Proof.Machine

section Exec
variable (s : State) (gr xr r1 r2 : Field) (adr : Word)

theorem exec_nop : exec .nop s = .next (s.advance 1) := rfl
theorem exec_ldMem : exec (.ldMem gr xr adr) s =
    aluMemory (fun _ v => (v, frOf false v)) gr xr adr s := rfl
theorem exec_st : exec (.st gr xr adr) s =
    withRegister gr s fun r => .next ((s.writeMem (effectiveAddress s xr adr) (s.readGr r)).advance 2) := rfl
theorem exec_lad : exec (.lad gr xr adr) s =
    withRegister gr s fun r => .next ((s.writeGr r (effectiveAddress s xr adr)).advance 2) := rfl
theorem exec_ldReg : exec (.ldReg r1 r2) s = aluRegister (fun _ v => (v, frOf false v)) r1 r2 s := rfl
theorem exec_addaMem : exec (.addaMem gr xr adr) s = aluMemory aluAdda gr xr adr s := rfl
theorem exec_subaMem : exec (.subaMem gr xr adr) s = aluMemory aluSuba gr xr adr s := rfl
theorem exec_addlMem : exec (.addlMem gr xr adr) s = aluMemory aluAddl gr xr adr s := rfl
theorem exec_sublMem : exec (.sublMem gr xr adr) s = aluMemory aluSubl gr xr adr s := rfl
theorem exec_addaReg : exec (.addaReg r1 r2) s = aluRegister aluAdda r1 r2 s := rfl
theorem exec_subaReg : exec (.subaReg r1 r2) s = aluRegister aluSuba r1 r2 s := rfl
theorem exec_addlReg : exec (.addlReg r1 r2) s = aluRegister aluAddl r1 r2 s := rfl
theorem exec_sublReg : exec (.sublReg r1 r2) s = aluRegister aluSubl r1 r2 s := rfl
theorem exec_andMem : exec (.andMem gr xr adr) s = aluMemory aluAnd gr xr adr s := rfl
theorem exec_orMem : exec (.orMem gr xr adr) s = aluMemory aluOr gr xr adr s := rfl
theorem exec_xorMem : exec (.xorMem gr xr adr) s = aluMemory aluXor gr xr adr s := rfl
theorem exec_andReg : exec (.andReg r1 r2) s = aluRegister aluAnd r1 r2 s := rfl
theorem exec_orReg : exec (.orReg r1 r2) s = aluRegister aluOr r1 r2 s := rfl
theorem exec_xorReg : exec (.xorReg r1 r2) s = aluRegister aluXor r1 r2 s := rfl
theorem exec_cpaMem : exec (.cpaMem gr xr adr) s = compareMemory cmpCpa gr xr adr s := rfl
theorem exec_cplMem : exec (.cplMem gr xr adr) s = compareMemory cmpCpl gr xr adr s := rfl
theorem exec_cpaReg : exec (.cpaReg r1 r2) s = compareRegister cmpCpa r1 r2 s := rfl
theorem exec_cplReg : exec (.cplReg r1 r2) s = compareRegister cmpCpl r1 r2 s := rfl
theorem exec_sla : exec (.sla gr xr adr) s = shiftBy shiftSla gr xr adr s := rfl
theorem exec_sra : exec (.sra gr xr adr) s = shiftBy shiftSra gr xr adr s := rfl
theorem exec_sll : exec (.sll gr xr adr) s = shiftBy shiftSll gr xr adr s := rfl
theorem exec_srl : exec (.srl gr xr adr) s = shiftBy shiftSrl gr xr adr s := rfl
theorem exec_jmi : exec (.jmi xr adr) s = jumpWhen s.signFlag xr adr s := rfl
theorem exec_jnz : exec (.jnz xr adr) s = jumpWhen (!s.zeroFlag) xr adr s := rfl
theorem exec_jze : exec (.jze xr adr) s = jumpWhen s.zeroFlag xr adr s := rfl
theorem exec_jump : exec (.jump xr adr) s = jumpWhen true xr adr s := rfl
theorem exec_jpl : exec (.jpl xr adr) s = jumpWhen (!s.signFlag && !s.zeroFlag) xr adr s := rfl
theorem exec_jov : exec (.jov xr adr) s = jumpWhen s.overflowFlag xr adr s := rfl
theorem exec_push : exec (.push xr adr) s =
    .next ((s.pushWord (effectiveAddress s xr adr)).advance 2) := rfl
theorem exec_pop : exec (.pop gr) s =
    withRegister gr s fun r => .next ((s.writeGr r s.topWord).dropWord.advance 1) := rfl
theorem exec_call : exec (.call xr adr) s =
    .next ((s.pushWord (s.pr + 2#16)).setPr (effectiveAddress s xr adr)) := rfl
theorem exec_ret : exec .ret s =
    .next (if Config.stackTop.toNat < s.sp.toNat + 1
      then ((s.setPr s.topWord).dropWord).setStatus .terminated
      else (s.setPr s.topWord).dropWord) := rfl
theorem exec_svc : exec (.svc xr adr) s =
    .next ((s.service (effectiveAddress s xr adr)).advance 2) := rfl

end Exec

/-! ## The host services -/

section Service
variable (s : State) (number : Word)

@[simp] theorem serviceIn_gr : s.serviceIn.gr = s.gr := by simp [State.serviceIn]
@[simp] theorem serviceOut_gr : s.serviceOut.gr = s.gr := rfl
@[simp] theorem service_gr : (s.service number).gr = s.gr := by
  unfold State.service; split
  · simp
  · split <;> simp
@[simp] theorem serviceIn_pr : s.serviceIn.pr = s.pr := by simp [State.serviceIn]
@[simp] theorem serviceOut_pr : s.serviceOut.pr = s.pr := rfl
@[simp] theorem service_pr : (s.service number).pr = s.pr := by
  unfold State.service; split
  · simp
  · split <;> simp
@[simp] theorem serviceIn_sp : s.serviceIn.sp = s.sp := by simp [State.serviceIn]
@[simp] theorem serviceOut_sp : s.serviceOut.sp = s.sp := rfl
@[simp] theorem service_sp : (s.service number).sp = s.sp := by
  unfold State.service; split
  · simp
  · split <;> simp
@[simp] theorem serviceIn_fr : s.serviceIn.fr = s.fr := by simp [State.serviceIn]
@[simp] theorem serviceOut_fr : s.serviceOut.fr = s.fr := rfl
@[simp] theorem service_fr : (s.service number).fr = s.fr := by
  unfold State.service; split
  · simp
  · split <;> simp
@[simp] theorem serviceIn_status : s.serviceIn.status = s.status := by simp [State.serviceIn]
@[simp] theorem serviceOut_status : s.serviceOut.status = s.status := rfl
@[simp] theorem service_status : (s.service number).status = s.status := by
  unfold State.service; split
  · simp
  · split <;> simp
@[simp] theorem serviceIn_output : s.serviceIn.output = s.output := by simp [State.serviceIn]
@[simp] theorem serviceOut_mem : s.serviceOut.mem = s.mem := rfl
@[simp] theorem serviceOut_input : s.serviceOut.input = s.input := rfl
@[simp] theorem serviceOut_freeReads : s.serviceOut.freeReads = s.freeReads := rfl

/-- Every service keeps memory in canonical form. -/
theorem wf_service (hs : Memory.wf s.mem = true) : Memory.wf (s.service number).mem = true := by
  unfold State.service
  split
  · exact wf_storeBytes _ _ _ (State.wf_writeMem _ _ _ (by simpa using hs))
  · split <;> exact hs

end Service

end Sys2Proof.Machine
end

