-- ==== Sys2Proof/Laws/ObjectFile.lean ====
section
/-! SUPPORT. The two directions of the codec's word serialisation (70_reset_and_hazards.md rule R232). -/

namespace Sys2Proof.Machine

/-- A word is joined again from its two bytes. -/
@[simp] theorem joinBytes_split (w : Word) : joinBytes (highByte w) (lowByte w) = w := by
  unfold joinBytes highByte lowByte
  ext i h
  by_cases h8 : i < 8
  · simp [h, h8]
  · have e : 8 + (i - 8) = i := by omega
    have e' : i - 8 < 8 := by omega
    simp [h, h8, e, e']

/-- R235: a joined word is `high * 256 + low`. -/
theorem joinBytes_eq (high low : Byte) :
    joinBytes high low = BitVec.ofNat 16 (high.toNat * 256 + low.toNat) := by
  unfold joinBytes
  have hadd : high.setWidth 16 <<< 8 ||| low.setWidth 16 =
      (high.setWidth 16 : Word) <<< 8 + low.setWidth 16 := by
    refine (BitVec.add_eq_or_of_and_eq_zero _ _ ?_).symm
    ext i h
    by_cases h8 : i < 8
    · simp [h8]
    · simp [h8, BitVec.getElem_setWidth, BitVec.getLsbD_of_ge low i (by omega)]
  rw [hadd]
  apply BitVec.eq_of_toNat_eq
  simp [Nat.shiftLeft_eq]

/-- The words of serialised words are those words. -/
@[simp] theorem imageWords_flatMap (ws : List Word) : imageWords (ws.flatMap wordBytes) = ws := by
  induction ws with
  | nil => rfl
  | cons w ws ih => simp [wordBytes, imageWords] at ih ⊢; exact ih

/-- Serialising gives two bytes for each word. -/
@[simp] theorem length_flatMap_wordBytes (ws : List Word) :
    (ws.flatMap wordBytes).length = 2 * ws.length := by
  induction ws with
  | nil => rfl
  | cons w ws ih => simp [wordBytes] at ih ⊢; omega

end Sys2Proof.Machine
end

