-- ==== Sys2Proof/Laws/PerInstr.lean ====
section
/-! SUPPORT. Facts about every instruction as encoded, one lemma for each constructor. -/

namespace Sys2Proof.Laws.EncodingRow

/-- The opcode of the encoded first word selects, in the opcode map of R75, the row with the
instruction's own mnemonic and with a format of its own length (R77). -/
def Statement (i : Instr) : Prop :=
  ∃ row, lookupOp (opOf ((encode i).headD 0#16)) = some row ∧ row.mnemonic = i.mnemonic ∧
    row.format.words = i.size

theorem nop : Statement (.nop) :=
  ⟨⟨0x00#8, .NOP, .op4⟩, by simp only [encode, List.headD_cons, opOf_packWord]; decide, rfl, rfl⟩
theorem ldMem (gr xr : Field) (adr : Word) : Statement (.ldMem gr xr adr) :=
  ⟨⟨0x10#8, .LD, .op5Memory⟩, by simp only [encode, List.headD_cons, opOf_packWord]; decide, rfl, rfl⟩
theorem st (gr xr : Field) (adr : Word) : Statement (.st gr xr adr) :=
  ⟨⟨0x11#8, .ST, .op1⟩, by simp only [encode, List.headD_cons, opOf_packWord]; decide, rfl, rfl⟩
theorem lad (gr xr : Field) (adr : Word) : Statement (.lad gr xr adr) :=
  ⟨⟨0x12#8, .LAD, .op1⟩, by simp only [encode, List.headD_cons, opOf_packWord]; decide, rfl, rfl⟩
theorem ldReg (r1 r2 : Field) : Statement (.ldReg r1 r2) :=
  ⟨⟨0x14#8, .LD, .op5Register⟩, by simp only [encode, List.headD_cons, opOf_packWord]; decide, rfl, rfl⟩
theorem addaMem (gr xr : Field) (adr : Word) : Statement (.addaMem gr xr adr) :=
  ⟨⟨0x20#8, .ADDA, .op5Memory⟩, by simp only [encode, List.headD_cons, opOf_packWord]; decide, rfl, rfl⟩
theorem subaMem (gr xr : Field) (adr : Word) : Statement (.subaMem gr xr adr) :=
  ⟨⟨0x21#8, .SUBA, .op5Memory⟩, by simp only [encode, List.headD_cons, opOf_packWord]; decide, rfl, rfl⟩
theorem addlMem (gr xr : Field) (adr : Word) : Statement (.addlMem gr xr adr) :=
  ⟨⟨0x22#8, .ADDL, .op5Memory⟩, by simp only [encode, List.headD_cons, opOf_packWord]; decide, rfl, rfl⟩
theorem sublMem (gr xr : Field) (adr : Word) : Statement (.sublMem gr xr adr) :=
  ⟨⟨0x23#8, .SUBL, .op5Memory⟩, by simp only [encode, List.headD_cons, opOf_packWord]; decide, rfl, rfl⟩
theorem addaReg (r1 r2 : Field) : Statement (.addaReg r1 r2) :=
  ⟨⟨0x24#8, .ADDA, .op5Register⟩, by simp only [encode, List.headD_cons, opOf_packWord]; decide, rfl, rfl⟩
theorem subaReg (r1 r2 : Field) : Statement (.subaReg r1 r2) :=
  ⟨⟨0x25#8, .SUBA, .op5Register⟩, by simp only [encode, List.headD_cons, opOf_packWord]; decide, rfl, rfl⟩
theorem addlReg (r1 r2 : Field) : Statement (.addlReg r1 r2) :=
  ⟨⟨0x26#8, .ADDL, .op5Register⟩, by simp only [encode, List.headD_cons, opOf_packWord]; decide, rfl, rfl⟩
theorem sublReg (r1 r2 : Field) : Statement (.sublReg r1 r2) :=
  ⟨⟨0x27#8, .SUBL, .op5Register⟩, by simp only [encode, List.headD_cons, opOf_packWord]; decide, rfl, rfl⟩
theorem andMem (gr xr : Field) (adr : Word) : Statement (.andMem gr xr adr) :=
  ⟨⟨0x30#8, .AND, .op5Memory⟩, by simp only [encode, List.headD_cons, opOf_packWord]; decide, rfl, rfl⟩
theorem orMem (gr xr : Field) (adr : Word) : Statement (.orMem gr xr adr) :=
  ⟨⟨0x31#8, .OR, .op5Memory⟩, by simp only [encode, List.headD_cons, opOf_packWord]; decide, rfl, rfl⟩
theorem xorMem (gr xr : Field) (adr : Word) : Statement (.xorMem gr xr adr) :=
  ⟨⟨0x32#8, .XOR, .op5Memory⟩, by simp only [encode, List.headD_cons, opOf_packWord]; decide, rfl, rfl⟩
theorem andReg (r1 r2 : Field) : Statement (.andReg r1 r2) :=
  ⟨⟨0x34#8, .AND, .op5Register⟩, by simp only [encode, List.headD_cons, opOf_packWord]; decide, rfl, rfl⟩
theorem orReg (r1 r2 : Field) : Statement (.orReg r1 r2) :=
  ⟨⟨0x35#8, .OR, .op5Register⟩, by simp only [encode, List.headD_cons, opOf_packWord]; decide, rfl, rfl⟩
theorem xorReg (r1 r2 : Field) : Statement (.xorReg r1 r2) :=
  ⟨⟨0x36#8, .XOR, .op5Register⟩, by simp only [encode, List.headD_cons, opOf_packWord]; decide, rfl, rfl⟩
theorem cpaMem (gr xr : Field) (adr : Word) : Statement (.cpaMem gr xr adr) :=
  ⟨⟨0x40#8, .CPA, .op5Memory⟩, by simp only [encode, List.headD_cons, opOf_packWord]; decide, rfl, rfl⟩
theorem cplMem (gr xr : Field) (adr : Word) : Statement (.cplMem gr xr adr) :=
  ⟨⟨0x41#8, .CPL, .op5Memory⟩, by simp only [encode, List.headD_cons, opOf_packWord]; decide, rfl, rfl⟩
theorem cpaReg (r1 r2 : Field) : Statement (.cpaReg r1 r2) :=
  ⟨⟨0x44#8, .CPA, .op5Register⟩, by simp only [encode, List.headD_cons, opOf_packWord]; decide, rfl, rfl⟩
theorem cplReg (r1 r2 : Field) : Statement (.cplReg r1 r2) :=
  ⟨⟨0x45#8, .CPL, .op5Register⟩, by simp only [encode, List.headD_cons, opOf_packWord]; decide, rfl, rfl⟩
theorem sla (gr xr : Field) (adr : Word) : Statement (.sla gr xr adr) :=
  ⟨⟨0x50#8, .SLA, .op1⟩, by simp only [encode, List.headD_cons, opOf_packWord]; decide, rfl, rfl⟩
theorem sra (gr xr : Field) (adr : Word) : Statement (.sra gr xr adr) :=
  ⟨⟨0x51#8, .SRA, .op1⟩, by simp only [encode, List.headD_cons, opOf_packWord]; decide, rfl, rfl⟩
theorem sll (gr xr : Field) (adr : Word) : Statement (.sll gr xr adr) :=
  ⟨⟨0x52#8, .SLL, .op1⟩, by simp only [encode, List.headD_cons, opOf_packWord]; decide, rfl, rfl⟩
theorem srl (gr xr : Field) (adr : Word) : Statement (.srl gr xr adr) :=
  ⟨⟨0x53#8, .SRL, .op1⟩, by simp only [encode, List.headD_cons, opOf_packWord]; decide, rfl, rfl⟩
theorem jmi (xr : Field) (adr : Word) : Statement (.jmi xr adr) :=
  ⟨⟨0x61#8, .JMI, .op2⟩, by simp only [encode, List.headD_cons, opOf_packWord]; decide, rfl, rfl⟩
theorem jnz (xr : Field) (adr : Word) : Statement (.jnz xr adr) :=
  ⟨⟨0x62#8, .JNZ, .op2⟩, by simp only [encode, List.headD_cons, opOf_packWord]; decide, rfl, rfl⟩
theorem jze (xr : Field) (adr : Word) : Statement (.jze xr adr) :=
  ⟨⟨0x63#8, .JZE, .op2⟩, by simp only [encode, List.headD_cons, opOf_packWord]; decide, rfl, rfl⟩
theorem jump (xr : Field) (adr : Word) : Statement (.jump xr adr) :=
  ⟨⟨0x64#8, .JUMP, .op2⟩, by simp only [encode, List.headD_cons, opOf_packWord]; decide, rfl, rfl⟩
theorem jpl (xr : Field) (adr : Word) : Statement (.jpl xr adr) :=
  ⟨⟨0x65#8, .JPL, .op2⟩, by simp only [encode, List.headD_cons, opOf_packWord]; decide, rfl, rfl⟩
theorem jov (xr : Field) (adr : Word) : Statement (.jov xr adr) :=
  ⟨⟨0x66#8, .JOV, .op2⟩, by simp only [encode, List.headD_cons, opOf_packWord]; decide, rfl, rfl⟩
theorem push (xr : Field) (adr : Word) : Statement (.push xr adr) :=
  ⟨⟨0x70#8, .PUSH, .op2⟩, by simp only [encode, List.headD_cons, opOf_packWord]; decide, rfl, rfl⟩
theorem pop (gr : Field) : Statement (.pop gr) :=
  ⟨⟨0x71#8, .POP, .op3⟩, by simp only [encode, List.headD_cons, opOf_packWord]; decide, rfl, rfl⟩
theorem call (xr : Field) (adr : Word) : Statement (.call xr adr) :=
  ⟨⟨0x80#8, .CALL, .op2⟩, by simp only [encode, List.headD_cons, opOf_packWord]; decide, rfl, rfl⟩
theorem ret : Statement (.ret) :=
  ⟨⟨0x81#8, .RET, .op4⟩, by simp only [encode, List.headD_cons, opOf_packWord]; decide, rfl, rfl⟩
theorem svc (xr : Field) (adr : Word) : Statement (.svc xr adr) :=
  ⟨⟨0xF0#8, .SVC, .op2⟩, by simp only [encode, List.headD_cons, opOf_packWord]; decide, rfl, rfl⟩

end Sys2Proof.Laws.EncodingRow
end

