-- ==== Sys2Proof/Laws/Source.lean ====
section
/-! SUPPORT. The laws of words laid out one after the other (30_encoding.md rule R89). -/

namespace Sys2Proof.Machine

/-- From a sequence of two assembler steps that succeeds, both do. -/
theorem except_bind_ok {α β : Type} {x : Except AsmError α} {f : α → Except AsmError β} {b : β}
    (h : (x >>= f) = .ok b) : ∃ a, x = .ok a ∧ f a = .ok b := by
  cases x with
  | ok a => exact ⟨a, rfl, h⟩
  | error e => cases h

section ConcatWords
variable {α : Type} (words : α → Except AsmError (List Word))

@[simp] theorem concatWords_nil : concatWords words [] = .ok [] := rfl

theorem concatWords_cons (x : α) (xs : List α) (out : List Word) :
    concatWords words (x :: xs) = .ok out ↔
      ∃ first rest, words x = .ok first ∧ concatWords words xs = .ok rest ∧ out = first ++ rest := by
  constructor
  · intro h
    obtain ⟨first, h1, h⟩ := except_bind_ok h
    obtain ⟨rest, h2, h⟩ := except_bind_ok h
    cases h
    exact ⟨first, rest, h1, h2, rfl⟩
  · rintro ⟨first, rest, h1, h2, rfl⟩
    simp only [concatWords, h1, h2]
    rfl

/-- The words of a list in two parts are the words of the parts. -/
theorem concatWords_append (xs ys : List α) (out : List Word) :
    concatWords words (xs ++ ys) = .ok out ↔
      ∃ front rest, concatWords words xs = .ok front ∧ concatWords words ys = .ok rest ∧
        out = front ++ rest := by
  induction xs generalizing out with
  | nil => simp
  | cons x xs ih =>
    simp only [List.cons_append, concatWords_cons, ih]
    constructor
    · rintro ⟨first, _, h1, ⟨front, rest, h2, h3, rfl⟩, rfl⟩
      exact ⟨_, rest, ⟨first, front, h1, h2, rfl⟩, h3, by simp⟩
    · rintro ⟨_, rest, ⟨first, front, h1, h2, rfl⟩, h3, rfl⟩
      exact ⟨first, _, h1, ⟨front, rest, h2, h3, rfl⟩, by simp⟩

end ConcatWords

/-- What laying out one more line does. -/
theorem placeLines_cons (a : Nat) (l : Line) (ls : List Line) (out : NameTable × Nat)
    (h : placeLines a (l :: ls) = .ok out) :
    ∃ n names stop, l.statement.size = .ok n ∧ placeLines (a + n) ls = .ok (names, stop) ∧
      out = (nameAt l.label a ++ names, stop) := by
  obtain ⟨n, h1, h⟩ := except_bind_ok h
  obtain ⟨⟨names, stop⟩, h2, h⟩ := except_bind_ok h
  cases h
  exact ⟨n, names, stop, h1, h2, rfl⟩

/-- What laying out one more block does. -/
theorem placeBlocks_cons (a : Nat) (b : Block) (bs : List Block) (out : List Placed)
    (h : placeBlocks a (b :: bs) = .ok out) :
    ∃ p ps, b.place a = .ok p ∧ placeBlocks p.stop bs = .ok ps ∧ out = p :: ps := by
  obtain ⟨p, h1, h⟩ := except_bind_ok h
  obtain ⟨ps, h2, h⟩ := except_bind_ok h
  cases h
  exact ⟨p, ps, h1, h2, rfl⟩

/-- What laying out a block does. -/
theorem place_ok (b : Block) (a : Nat) (p : Placed) (h : b.place a = .ok p) :
    p.block = b ∧ p.first = a ∧ (p.symbols.map Prod.fst).Nodup ∧
      (∃ names, placeLines a b.lines = .ok (names, p.poolFirst) ∧
        p.symbols = nameAt b.name a ++ names) ∧
      placePool p.poolFirst (poolOrder b.literals) = .ok (p.pool, p.stop) := by
  obtain ⟨⟨names, poolFirst⟩, h1, h⟩ := except_bind_ok h
  obtain ⟨⟨pool, stop⟩, h2, h⟩ := except_bind_ok h
  dsimp only at h
  split at h
  · cases h
    exact ⟨rfl, rfl, ‹_›, ⟨names, h1, rfl⟩, h2⟩
  · cases h

/-- The pool ends after the words it emits. -/
theorem placePool_stop (a : Nat) (ts : List (List Char)) (table : NameTable) (stop : Nat)
    (ws : List Word) (h : placePool a ts = .ok (table, stop)) (hw : concatWords literalWords ts = .ok ws) :
    a + ws.length = stop := by
  induction ts generalizing a table ws with
  | nil => cases h; cases hw; rfl
  | cons t ts ih =>
    obtain ⟨v, h1, h⟩ := except_bind_ok h
    obtain ⟨⟨names, stop'⟩, h2, h⟩ := except_bind_ok h
    cases h
    obtain ⟨first, rest, e1, e2, rfl⟩ := (concatWords_cons _ _ _ _).1 hw
    rw [h1] at e1
    cases e1
    have := ih _ _ _ h2 e2
    simp only [List.length_append]
    omega

/-- A name that stands once in a table is found there. -/
theorem find_of_nodup (t : NameTable) (name : List Char) (w : Word) (hn : (t.map Prod.fst).Nodup)
    (h : (name, w) ∈ t) : t.find name = some w := by
  have hf : t.filter (fun e => e.1 == name) = [(name, w)] := by
    induction t with
    | nil => simp at h
    | cons e t ih =>
      simp only [List.map_cons, List.nodup_cons] at hn
      rcases List.mem_cons.1 h with rfl | h
      · have : t.filter (fun e => e.1 == name) = [] := by
          rw [List.filter_eq_nil_iff]
          rintro ⟨k, v⟩ hk heq
          have : k = name := by simpa using heq
          subst this
          exact hn.1 (List.mem_map.2 ⟨_, hk, rfl⟩)
        simp [this]
      · have hne : (e.1 == name) = false := by
          simp only [beq_eq_false_iff_ne]
          rintro rfl
          exact hn.1 (List.mem_map.2 ⟨_, h, rfl⟩)
        rw [List.filter_cons_of_neg (by simp [hne])]
        exact ih hn.2 h
  unfold NameTable.find
  rw [hf]

end Sys2Proof.Machine
end

