-- ==== Sys2Proof/Tests/Slice0.lean ====
section
/-! SUPPORT. Small tests: the checks of WellFormed, every constructor's decoding by a word written out from
the opcode map of 30_encoding.md rule R75, single steps whose expected results stand in
95_test_vectors.md (cited as §), and a witness for the hypotheses of each statement. -/

namespace Sys2Proof.Tests

open Sys2Proof Sys2Proof.Machine Sys2Proof.Spec

/-! ## Well-formedness: each check refuses an ill-formed term -/

theorem test_wf_refuses_gr_of_a_memory_form : (Instr.ldMem 8 0 0).wellFormed = false := by decide
theorem test_wf_refuses_gr_of_a_store : (Instr.st 15 0 0).wellFormed = false := by decide
theorem test_wf_refuses_gr_of_a_shift : (Instr.sra 9 0 1).wellFormed = false := by decide
theorem test_wf_refuses_gr_of_pop : (Instr.pop 8).wellFormed = false := by decide
theorem test_wf_refuses_first_register : (Instr.addaReg 8 1).wellFormed = false := by decide
theorem test_wf_refuses_second_register : (Instr.ldReg 0 8).wellFormed = false := by decide
theorem test_wf_accepts_high_index : (Instr.lad 7 15 0).wellFormed = true := by decide
theorem test_wf_accepts_registers : (Instr.cplReg 7 7).wellFormed = true := by decide

/-! ## Decoding: words written out from R70, R72 and R75 -/

theorem test_decode_load_store :
    decode 0x0055 7 = .ok .nop ∧ decode 0x1012 0xFFFF = .ok (.ldMem 1 2 0xFFFF) ∧
    decode 0x1113 0x0FFF = .ok (.st 1 3 0x0FFF) ∧ decode 0x1276 0x8001 = .ok (.lad 7 6 0x8001) ∧
    decode 0x1412 7 = .ok (.ldReg 1 2) := by decide
theorem test_decode_arith_memory :
    decode 0x2012 0x1234 = .ok (.addaMem 1 2 0x1234) ∧ decode 0x2134 0x1234 = .ok (.subaMem 3 4 0x1234) ∧
    decode 0x2256 0x1234 = .ok (.addlMem 5 6 0x1234) ∧
    decode 0x2370 0x1234 = .ok (.sublMem 7 0 0x1234) := by decide
theorem test_decode_arith_register :
    decode 0x2412 9 = .ok (.addaReg 1 2) ∧ decode 0x2534 9 = .ok (.subaReg 3 4) ∧
    decode 0x2656 9 = .ok (.addlReg 5 6) ∧ decode 0x2770 9 = .ok (.sublReg 7 0) := by decide
theorem test_decode_logic :
    decode 0x3012 0xABCD = .ok (.andMem 1 2 0xABCD) ∧ decode 0x3134 0xABCD = .ok (.orMem 3 4 0xABCD) ∧
    decode 0x3256 0xABCD = .ok (.xorMem 5 6 0xABCD) ∧ decode 0x3412 9 = .ok (.andReg 1 2) ∧
    decode 0x3534 9 = .ok (.orReg 3 4) ∧ decode 0x3656 9 = .ok (.xorReg 5 6) := by decide
theorem test_decode_compare :
    decode 0x4012 0xABCD = .ok (.cpaMem 1 2 0xABCD) ∧ decode 0x4134 0xABCD = .ok (.cplMem 3 4 0xABCD) ∧
    decode 0x4412 9 = .ok (.cpaReg 1 2) ∧ decode 0x4534 9 = .ok (.cplReg 3 4) := by decide
theorem test_decode_shift :
    decode 0x5012 3 = .ok (.sla 1 2 3) ∧ decode 0x5134 3 = .ok (.sra 3 4 3) ∧
    decode 0x5256 3 = .ok (.sll 5 6 3) ∧ decode 0x5312 0 = .ok (.srl 1 2 0) := by decide
theorem test_decode_jump :
    decode 0x6101 0x40 = .ok (.jmi 1 0x40) ∧ decode 0x6292 0x40 = .ok (.jnz 2 0x40) ∧
    decode 0x6303 0x40 = .ok (.jze 3 0x40) ∧ decode 0x6418 0x40 = .ok (.jump 8 0x40) ∧
    decode 0x6505 0x40 = .ok (.jpl 5 0x40) ∧ decode 0x6606 0x40 = .ok (.jov 6 0x40) := by decide
theorem test_decode_stack_system :
    decode 0x7001 0 = .ok (.push 1 0) ∧ decode 0x7137 9 = .ok (.pop 3) ∧
    decode 0x8002 0x10 = .ok (.call 2 0x10) ∧ decode 0x81FF 9 = .ok .ret ∧
    decode 0xF001 0xFFEF = .ok (.svc 1 0xFFEF) := by decide
theorem test_decode_refuses :
    decode 0x0100 0 = .error (.illegalOp 0x01) ∧ decode 0x1300 0 = .error (.illegalOp 0x13) ∧
    decode 0xFF00 0 = .error (.illegalOp 0xFF) := by decide
/-- The host's numbering: the second word in bits 31..16. -/
theorem test_decode_table_word :
    decodeTableWord 32 0x00031010 = some (.ldMem 1 0 3) ∧ decodeTableWord 16 0x7130 = some (.pop 3) ∧
    decodeTableWord 16 0x1300 = none := by decide
/-- §1 S15: an unknown word in the disassembler's view. -/
theorem test_view :
    viewWord 0x0100 = ⟨['D', 'C'], .literal ['#', '0', '1', '0', '0'], 1⟩ ∧
    viewWord 0x1412 = ⟨['L', 'D'], .operands .op5Register, 1⟩ := by decide

/-! ## Single steps -/

/-- A machine at address 0 with words from there on, a few registers, and one word of data at 0x0010. -/
def machine (words : List Word) (gr1 gr2 : Word) (fr : BitVec 3) (data : Word) : State :=
  { State.reset with
    gr := #v[0, gr1, gr2, 4, 0, 0, 0, 0], fr := fr
    mem := imageMemory 0 (words ++ List.replicate (16 - words.length) 0 ++ [data]) }

/-- What a next state says. -/
def after (r : Result) (p : State → Bool) : Bool :=
  match r with
  | .next t => p t
  | .fault _ | .refused _ => false

/-- GR1, FR and PR after a step. -/
def gives (s : State) (gr1 : Word) (fr : BitVec 3) (pr : Word) : Bool :=
  after (step s) fun t => t.gr[1] == gr1 && t.fr == fr && t.pr == pr

/-- §2.0, GR2 = 2: the address word itself is loaded through the wrapped address. -/
theorem test_ld_memory_index_wraps :
    gives (machine [0x1012, 0xFFFF] 0 2 0 0) 0xFFFF 0b010 2 = true := by decide
/-- §2.1: OF is cleared. -/
theorem test_ld_memory_clears_of : gives (machine [0x1010, 0x10] 5 0 0b110 0) 0 0b001 2 = true := by decide
theorem test_ld_register : gives (machine [0x1412] 0 0x1234 0b101 0) 0x1234 0b000 1 = true := by decide
theorem test_st :
    after (step (machine [0x1113, 0x0FFF] 0xBEEF 0 0b010 0)) (fun t => t.readMem 0x1003 == 0xBEEF) = true ∧
    gives (machine [0x1113, 0x0FFF] 0xBEEF 0 0b010 0) 0xBEEF 0b010 2 = true := by decide
theorem test_lad_high_index_adds_nothing :
    gives (machine [0x1218, 0x0010] 0x1234 0 0b001 0) 0x0010 0b001 2 = true := by decide
/-- §2.0: an instruction across the top of memory. -/
theorem test_fetch_wraps :
    gives { machine [0x0007] 0 0 0 0 with pr := 0xFFFF, mem := [(0, 7), (0xFFFF, 0x1210)] } 7 0 1 = true := by
  decide

/-! §2.2 -/
theorem test_adda :
    gives (machine [0x2010, 0x10] 0x7FFF 0 0 1) 0x8000 0b110 2 = true ∧
    gives (machine [0x2412] 0x8000 0x8000 0 0) 0 0b101 1 = true := by decide
theorem test_suba :
    gives (machine [0x2110, 0x10] 0x7FFF 0 0 0xFFFF) 0x8000 0b110 2 = true ∧
    gives (machine [0x2512] 0x8000 1 0 0) 0x7FFF 0b100 1 = true := by decide
theorem test_addl :
    gives (machine [0x2210, 0x10] 0xFFFF 0 0 1) 0 0b101 2 = true ∧
    gives (machine [0x2612] 0x7FFF 1 0 0) 0x8000 0b010 1 = true := by decide
theorem test_subl :
    gives (machine [0x2310, 0x10] 0 0 0 1) 0xFFFF 0b110 2 = true ∧
    gives (machine [0x2712] 0x8000 1 0 0) 0x7FFF 0b000 1 = true := by decide
theorem test_and :
    gives (machine [0x3010, 0x10] 0xF0F0 0 0b100 0x0FF0) 0x00F0 0b000 2 = true ∧
    gives (machine [0x3412] 0xF000 0x0FFF 0 0) 0 0b001 1 = true := by decide
theorem test_or :
    gives (machine [0x3110, 0x10] 0x8000 0 0 1) 0x8001 0b010 2 = true ∧
    gives (machine [0x3512] 0x8000 1 0b100 0) 0x8001 0b010 1 = true := by decide
theorem test_xor :
    gives (machine [0x3210, 0x10] 0xFFFF 0 0 0x00FF) 0xFF00 0b010 2 = true ∧
    gives (machine [0x3612] 0x1234 0x1234 0 0) 0 0b001 1 = true := by decide
theorem test_cpa :
    gives (machine [0x4010, 0x10] 0x7FFF 0 0b110 0x8000) 0x7FFF 0b000 2 = true ∧
    gives (machine [0x4412] 0xFFFF 1 0 0) 0xFFFF 0b010 1 = true := by decide
theorem test_cpl :
    gives (machine [0x4110, 0x10] 0x0000 0 0 0x8000) 0x0000 0b010 2 = true ∧
    gives (machine [0x4512] 0xFFFF 1 0b110 0) 0xFFFF 0b000 1 = true := by decide

/-! §2.3 -/
theorem test_sla :
    gives (machine [0x5010, 3] 0xFFFF 0 0 0) 0xFFF8 0b110 2 = true ∧
    gives (machine [0x5010, 16] 0x7FFF 0 0 0) 0 0b001 2 = true := by decide
theorem test_sra :
    gives (machine [0x5110, 1] 0x0003 0 0 0) 1 0b100 2 = true ∧
    gives (machine [0x5110, 17] 0x8000 0 0 0) 0xFFFF 0b110 2 = true := by decide
theorem test_sll :
    gives (machine [0x5210, 16] 0x0001 0 0 0) 0 0b101 2 = true ∧
    gives (machine [0x5210, 0] 0x1234 0 0b110 0) 0x1234 0b000 2 = true := by decide
theorem test_srl :
    gives (machine [0x5312, 0] 0x8001 1 0 0) 0x4000 0b100 2 = true ∧
    gives (machine [0x5310, 17] 0xFFFF 0 0 0) 0 0b001 2 = true := by decide

/-! §2.4, GR3 = 4 -/
theorem test_jmi :
    gives (machine [0x6100, 0x40] 0 0 0b110 0) 0 0b110 0x40 = true ∧
    gives (machine [0x6100, 0x40] 0 0 0b101 0) 0 0b101 2 = true := by decide
theorem test_jnz :
    gives (machine [0x6200, 0x40] 0 0 0b100 0) 0 0b100 0x40 = true ∧
    gives (machine [0x6200, 0x40] 0 0 0b001 0) 0 0b001 2 = true := by decide
theorem test_jze :
    gives (machine [0x6300, 0x40] 0 0 0b101 0) 0 0b101 0x40 = true ∧
    gives (machine [0x6300, 0x40] 0 0 0b010 0) 0 0b010 2 = true := by decide
theorem test_jump : gives (machine [0x6403, 0x40] 0 0 0b001 0) 0 0b001 0x44 = true := by decide
theorem test_jpl :
    gives (machine [0x6500, 0x40] 0 0 0b100 0) 0 0b100 0x40 = true ∧
    gives (machine [0x6500, 0x40] 0 0 0b010 0) 0 0b010 2 = true := by decide
theorem test_jov :
    gives (machine [0x6600, 0x40] 0 0 0b101 0) 0 0b101 0x40 = true ∧
    gives (machine [0x6600, 0x40] 0 0 0b010 0) 0 0b010 2 = true := by decide

/-! §2.5, §2.6 -/
theorem test_push :
    after (step (machine [0x7001, 0] 3 0 0 0)) (fun t => t.sp == 0xFEFF && t.readMem 0xFEFF == 3) = true ∧
    after (step { machine [0x7000, 5] 0 0 0 0 with sp := 0 })
      (fun t => t.sp == 0xFFFF && t.readMem 0xFFFF == 5) = true := by decide
theorem test_pop :
    after (step { machine [0x7110] 0 0 0b110 0x1234 with sp := 0x10 })
      (fun t => t.sp == 0x11 && t.gr[1] == 0x1234 && t.fr == 0b110 && t.pr == 1) = true ∧
    after (step (machine [0x7180] 0 0 0 0)) (fun t => t.status == .illegal 0 0x7180 && t.sp == 0xFF00) =
      true := by decide
theorem test_call :
    after (step (machine [0x8000, 0x30] 0 0 0 0))
      (fun t => t.sp == 0xFEFF && t.readMem 0xFEFF == 2 && t.pr == 0x30) = true := by decide
theorem test_ret_runs_on :
    after (step { machine [0x8100] 0 0 0 0 with sp := 0 })
      (fun t => t.sp == 1 && t.pr == 0x8100 && t.status == .running) = true := by decide
theorem test_ret_ends_the_run :
    after (step { machine [0x8100] 0 0 0 0 with sp := 0xFFFF })
      (fun t => t.sp == 0 && t.pr == 0 && t.status == .terminated) = true := by decide

/-! §2.7 -/
theorem test_svc_input_overlap :
    after (step { machine [0xF000, 0xFFF0] 0x0100 0x0101 0b110 0 with input := [[0x78, 0x79, 0x7A], [1]] })
      (fun t => t.readMem 0x100 == 0x78 && t.readMem 0x101 == 0x79 && t.readMem 0x102 == 0x7A &&
        t.input == [[1]] && t.fr == 0b110 && t.pr == 2) = true := by decide
theorem test_svc_output_low_bytes :
    after (step { machine [0xF000, 0xFFF2] 0xFFFF 0x0010 0 2 with
        mem := [(0, 0xF000), (1, 0xFFF2), (0x10, 2), (0xFFFF, 0x1261)] })
      (fun t => t.output == [0x61, 0x00, 0x0A]) = true := by decide
theorem test_svc_unknown_number :
    after (step (machine [0xF000, 0x1234] 1 2 0b010 0))
      (fun t => t.output == [] && t.pr == 2 && t.fr == 0b010) = true := by decide
theorem test_nop : gives (machine [0x0055] 1 2 0b010 0) 1 0b010 1 = true := by decide

/-- §2.0 and P7: the exception records PR and the word, and writes nothing else. -/
theorem test_illegal_opcode :
    after (step (machine [0x1300] 1 2 0b010 0))
      (fun t => t == { machine [0x1300] 1 2 0b010 0 with status := .illegal 0 0x1300 }) = true := by decide
theorem test_illegal_second_register :
    after (step (machine [0x1408] 1 2 0 0))
      (fun t => t == { machine [0x1408] 1 2 0 0 with status := .illegal 0 0x1408 }) = true := by decide
theorem test_final_status_faults :
    step { State.reset with status := .terminated } = .fault (.notRunning .terminated) := rfl
theorem test_with_fetch_word :
    gives (State.reset.withFetchWord 32 0x12341210) 0x1234 0 2 = true := by decide

/-! ## Memory, the codec and the assembler's words -/

theorem test_memory_canonical :
    Memory.write [(3, 1), (7, 2)] 5 9 = [(3, 1), (5, 9), (7, 2)] ∧ Memory.write [(3, 1), (7, 2)] 3 0 = [(7, 2)] ∧
    Memory.wf [(7, 2), (3, 1)] = false ∧ Memory.wf [(3, 0)] = false ∧ Memory.wf [(65536, 1)] = false := by decide
/-- §2.8 -/
theorem test_encode_object :
    encodeObject 0x0102 [0x1234, 0xFFFF] = [0x43, 0x41, 0x53, 0x4C, 0x01, 0x02, 0, 0, 0, 0, 0, 0, 0, 0, 0, 0,
      0x12, 0x34, 0xFF, 0xFF] := by decide
theorem test_decode_object_reserved_ignored :
    decodeObject [0x43, 0x41, 0x53, 0x4C, 0x00, 0x07, 255, 255, 255, 255, 255, 255, 255, 255, 255, 255,
      0x81, 0x00] = .ok (7, [0x8100]) := by decide
theorem test_decode_object_rejects :
    decodeObject [0x43, 0x41, 0x53] = .error .badMagic ∧ decodeObject [0x43, 0x41, 0x53, 0x58] = .error .badMagic ∧
    decodeObject [0x43, 0x41, 0x53, 0x4C, 0, 0, 0, 0, 0, 0] = .error .shortHeader ∧
    decodeObject (encodeObject 0 [] ++ [0]) = .error .oddLength := by decide
/-- R85, R89: `DC 'ab''c'` (log entry 13: §1 S7 leaves out the `b`). -/
theorem test_dc_quoted :
    dcWords (fun _ => none) ['\'', 'a', 'b', '\'', '\'', 'c', '\''] = .ok [0x61, 0x62, 0x27, 0x63] := by decide
/-- R85: a label, a quoted comma and a comment; then text that is no label and no mnemonic. -/
theorem test_parse_line :
    parseLine "L1 DC 'a,;' , 5 ; x".toList =
      .ok (some ⟨some ['L', '1'], ['D', 'C'], ["'a,;'".toList, ['5']]⟩) ∧
    parseLine "  ; x".toList = .ok none ∧ parseLine "l1 RET".toList = .error .invalidLabel ∧
    parseLine "A12345678 RET".toList = .error .invalidLabel ∧
    parseLine " Ret".toList = .error .invalidMnemonic ∧ parseLine "L1".toList = .error .invalidMnemonic := by
  decide
theorem test_assemble_forms :
    assemble (fun _ => none) (fun _ => none) .LD [['G', 'R', '1'], ['G', 'R', '2']] = .ok (.ldReg 1 2) ∧
    assemble (fun _ => none) (fun _ => none) .LD [['G', 'R', '1'], ['#', 'F', 'f', '0', '0'], ['G', 'R', '2']] =
      .ok (.ldMem 1 2 0xFF00) ∧
    assemble (fun _ => none) (fun _ => none) .PUSH [['-', '1'], ['G', 'R', '0']] = .error .indexByGr0 := by decide
/-- Source text, one string a line. -/
def source (lines : List String) : List (List Char) := lines.map String.toList
/-- §3 P1, the object file. -/
theorem test_source_literal :
    objectFile (source ["MAIN  START", "      LD    GR1, =5", "      RET", "      END"]) =
      .ok ([0x43, 0x41, 0x53, 0x4C, 0, 0, 0, 0, 0, 0, 0, 0, 0, 0, 0, 0, 0x10, 0x10, 0, 3, 0x81, 0, 0, 5]) := by
  decide
/-- §3 P2: labels before and after their use, `DC` and `DS`. -/
theorem test_source_labels :
    assembleSource (source ["MAIN  START", "      LAD   GR1, 0", "      LD    GR2, N",
      "LOOP  ADDA  GR1, GR2", "      SUBA  GR2, ONE", "      JPL   LOOP", "      ST    GR1, RES", "      RET",
      "N     DC    4", "ONE   DC    1", "RES   DS    1", "      END"]) =
      .ok (0, [0x1210, 0, 0x1020, 0xC, 0x2412, 0x2120, 0xD, 0x6500, 4, 0x1110, 0xE, 0x8100, 4, 1, 0]) := by
  decide
/-- §3 P5: `OUT`, and a `DC` of a string. -/
theorem test_source_out :
    assembleSource (source ["MAIN  START", "      OUT   MSG, LEN", "      RET", "MSG   DC    'Hi'",
      "LEN   DC    2", "      END"]) =
      .ok (0, [0x7001, 0, 0x7002, 0, 0x1210, 0xD, 0x1220, 0xF, 0xF000, 0xFFF2, 0x7120, 0x7110, 0x8100, 0x48,
        0x69, 2]) := by decide
/-- §1 S6, R87, R90, R96: two blocks with a local `L`, an entry point, a `CALL` to the other routine, a
shared literal in the place of its first use (log entry 27) and a LIFO pool. -/
theorem test_source_blocks :
    assembleSource (source ["A START L", "L CALL B", " LD GR1, =7", " LD GR2, =8", " LD GR3, =7", " END",
      "B START", " RET", "L JUMP L", " END"]) =
      .ok (0, [0x8000, 0xA, 0x1010, 9, 0x1020, 8, 0x1030, 9, 8, 7, 0x8100, 0x6400, 0xB]) := by decide
theorem test_source_errors :
    assembleSource (source ["A START", "L RET", "L RET", " END"]) = .error .alreadyDefined ∧
    assembleSource (source ["A START", " JUMP B", " END", "B START", " END"]) = .error .undefinedSymbol ∧
    assembleSource (source ["A START", " RET"]) = .error .missingEnd ∧
    assembleSource (source [" RET"]) = .error .outsideBlock ∧
    assembleSource (source ["A START", " HALT", " END"]) = .error .invalidMnemonic := by decide
theorem test_pool_lifo :
    poolWords [['5'], ['7'], ['5']] = .ok [7, 5] := by decide

/-! ## Witnesses: a concrete state and operands that meet every hypothesis of a statement, one for each
clause at a boundary of its range -/

theorem witness_DecodeFollowsOpcodeMap :
    decode 0x1012 0xFFFF = .ok (.ldMem 1 2 0xFFFF) ∧ decode 0x7137 9 = .ok (.pop 3) := by decide
theorem witness_UnlistedOpcodesAreRefused :
    (∀ row ∈ opcodeMap, row.op ≠ opOf 0x1300) ∧ ∃ row ∈ opcodeMap, row.op = opOf 0xF0FF := by decide
theorem witness_IgnoredFieldsDoNotMatter :
    lookupOp (opOf 0x81FF) = some ⟨0x81, .RET, .op4⟩ ∧
    0x81FF#16 &&& usedBits .op4 = 0x8100#16 &&& usedBits .op4 ∧
    lookupOp (opOf 0x7137) = some ⟨0x71, .POP, .op3⟩ ∧
    0x7137#16 &&& usedBits .op3 = 0x7130#16 &&& usedBits .op3 ∧
    lookupOp (opOf 0x6292) = some ⟨0x62, .JNZ, .op2⟩ ∧
    0x6292#16 &&& usedBits .op2 = 0x6202#16 &&& usedBits .op2 := by decide
theorem witness_RegisterFormIsMemoryFormPlusFour :
    (machine [0x2010, 0x10] 1 7 0 7).readMem (effectiveAddress (machine [0x2010, 0x10] 1 7 0 7) 0 0x10) =
      (machine [0x2010, 0x10] 1 7 0 7).gr[(2 : Reg)] := by decide
theorem witness_LengthFollowsFromOpcode :
    decode 0x0000 0 = .ok .nop ∧ decode 0x8100 0 = .ok .ret ∧ decode 0x4512 0 = .ok (.cplReg 1 2) ∧
    decode 0x1000 0 = .ok (.ldMem 0 0 0) ∧ decode 0xF000 0 = .ok (.svc 0 0) := by decide
theorem witness_DisassemblerViewOfAWord :
    decode 0xF001 0xFFEF = .ok (.svc 1 0xFFEF) ∧ (∀ row ∈ opcodeMap, row.op ≠ opOf 0x1300) ∧
    (machine [0x1300] 0 0 0 0).status = .running ∧
    (machine [0x1300] 0 0 0 0).readMem 0 = 0x1300 := by decide
theorem witness_StepRunsTheDecodedInstruction :
    (machine [0x1012, 0xFFFF] 0 2 0 0).status = .running ∧
    decode ((machine [0x1012, 0xFFFF] 0 2 0 0).readMem 0) ((machine [0x1012, 0xFFFF] 0 2 0 0).readMem (0 + 1)) =
      .ok (.ldMem 1 2 0xFFFF) := by decide
theorem witness_UnlistedOpcodeRaisesIllegalInstruction :
    (machine [0x1300] 0 0 0 0).status = .running ∧
    ∀ row ∈ opcodeMap, row.op ≠ opOf ((machine [0x1300] 0 0 0 0).readMem 0) := by decide
theorem witness_RegisterFieldAboveSevenIsIllegal :
    (∃ f ∈ (Instr.ldReg 0 8).registerFields, 8 ≤ f.toNat) ∧ (∃ f ∈ (Instr.pop 15).registerFields, 8 ≤ f.toNat) := by
  decide
theorem witness_FinalStatusTakesNoStep :
    ({ State.reset with status := .terminated } : State).status ≠ .running ∧
    ({ State.reset with status := .illegal 2 0x1300 } : State).status ≠ .running := by decide
theorem witness_RunningMachineAlwaysSteps : State.reset.status = .running := rfl
/-- Both ends of a run: the main routine's `RET` at the least SP that ends it, and an illegal word. -/
theorem witness_RunEndsOnlyByRetOrIllegal :
    after (step (machine [0x8100] 0 0 0 0)) (fun t => t.status != .running) = true ∧
    after (step (machine [0x1300] 0 0 0 0)) (fun t => t.status != .running) = true ∧
    after (step (machine [0x1418] 0 0 0 0)) (fun t => t.status != .running) = true := by decide
theorem witness_EffectiveAddressRule :
    decode ((machine [0x1018, 0x10] 0 0 0 0).readMem 0) ((machine [0x1018, 0x10] 0 0 0 0).readMem (0 + 1)) =
      .ok (.ldMem 1 8 0x10) ∧
    (Instr.ldMem 1 8 0x10).size = 2 ∧ (Instr.ldMem 1 8 0x10).wellFormed = true := by decide
theorem witness_LoadResult : 8 ≤ (8 : Field).toNat ∧ 8 ≤ (15 : Field).toNat := by decide
theorem witness_StoreResult : Memory.wf State.reset.mem = true := by decide
/-- Each jump's condition holds at one FR value R33 allows and fails at another. -/
theorem witness_ResultFlagsRule :
    after (exec (.cplReg 1 2) { State.reset with fr := 0b110 }) (fun t => t.fr == frOf false 0) = true ∧
    writesFr (.cplReg 1 2) = true ∧ (Instr.cplReg 1 2).wellFormed = true ∧ maySetOf (.cplReg 1 2) = false ∧
    writesFr (.sla 7 15 1) = true ∧ (Instr.sla 7 15 1).wellFormed = true ∧
    destination (.sla 7 15 1) = some (field 7) := by decide
theorem witness_JumpResult :
    ((0b010#3).getLsbD 1 = true ∧ ¬ (0b101#3).getLsbD 1 = true) ∧
    ((0b100#3).getLsbD 0 = false ∧ ¬ (0b001#3).getLsbD 0 = false) ∧
    ((0b100#3).getLsbD 2 = true ∧ ¬ (0b010#3).getLsbD 2 = true) := by decide
theorem witness_JumpConditionTable :
    ∀ f ∈ [0b000#3, 0b001, 0b010, 0b100, 0b101, 0b110], legalFr f = true := by decide
theorem witness_PushAndCallResult : Memory.wf (machine [0x7000, 5] 0 0 0 0).mem = true := by decide
/-- The two clauses at their common boundary. -/
theorem witness_ReturnResult :
    ({ State.reset with sp := 0xFEFF } : State).sp.toNat < 0xFF00 ∧ 0xFF00 ≤ State.reset.sp.toNat := by decide
theorem witness_PushThenPopRestores :
    after (exec (.push 0 0x1234) State.reset)
      (fun t => after (exec (.pop (field 3)) t) fun u => u.gr[(3 : Reg)] == 0x1234 && u.sp == 0xFF00) = true ∧
    Memory.wf State.reset.mem = true := by decide
/-- A `CALL` to a `RET`, at the least and the greatest SP the statement names. -/
def calling (sp : Word) : State := { machine [0x8000, 0x10] 0 0 0 0x8100 with sp := sp }
theorem witness_CallThenReturnComesBack :
    Memory.wf (calling 1).mem = true ∧ (calling 1).status = .running ∧
    decode ((calling 1).readMem 0) ((calling 1).readMem (0 + 1)) = .ok (.call 0 0x10) ∧
    after (step (calling 0xFF00)) (fun t => opOf (t.readMem t.pr) == 0x81) = true ∧
    after (step (calling 1)) (fun t => opOf (t.readMem t.pr) == 0x81 && t.sp == 0) = true := by decide
theorem witness_InputServiceResult :
    Memory.wf (machine [0xF000, 0xFFF0] 0x100 0x200 0 0).mem = true ∧
    effectiveAddress (machine [0xF000, 0xFFF0] 0x100 0x200 0 0) 0 0xFFF0 = 0xFFF0 ∧
    ({ State.reset with input := [[1]] } : State).input = [1] :: [] ∧ State.reset.input = [] := by decide
theorem witness_OutputServiceResult :
    effectiveAddress (machine [0xF000, 0xFFF2] 0x100 0x200 0 0) 0 0xFFF2 = 0xFFF2 := by decide
theorem witness_UnknownServiceAndNopOnlyAdvance :
    effectiveAddress State.reset 0 0xFFF1 ≠ 0xFFF0 ∧ effectiveAddress State.reset 0 0xFFF1 ≠ 0xFFF2 := by decide
theorem witness_OnlyTheDestinationRegisterChanges :
    after (exec (.lad 1 0 5) State.reset) (fun t => t.gr[(1 : Reg)] == 5) = true ∧
    destination (.lad 1 0 5) ≠ some (field 2) ∧ destination (.cpaReg 1 2) ≠ some (field 1) := by decide
theorem witness_OnlyTheStoredWordsChange :
    after (exec (.push 0 5) State.reset) (fun t => t.readMem 0xFEFF == 5) = true ∧
    ¬ storesTo (.push 0 5) State.reset 0xFF00 ∧ storesTo (.push 0 5) State.reset 0xFEFF := by
  refine ⟨by decide, ?_, ?_⟩ <;> simp [storesTo, State.reset, Config.stackTop]
theorem witness_StackPointerMovesOnlyByStackInstructions :
    after (exec (.pop 8) State.reset) (fun t => t.sp == 0xFF00) = true ∧
    after (exec (.pop 7) State.reset) (fun t => t.sp == 0xFF01) = true := by decide
/-- Clause by clause: a flag the jump does not read; an instruction outside R29; one inside it. -/
theorem witness_FlagsReachOnlyTheConditionalJumps :
    (∀ k ∈ readsFr (.jov 0 0x40), (0b110#3).getLsbD k = (0b101#3).getLsbD k) ∧
    after (exec (.jov 0 0x40) { State.reset with fr := 0b101 }) (fun t => t.pr == 0x40) = true ∧
    writesFr (.lad 1 0 5) = false ∧ writesFr (.addaReg 1 2) = true ∧
    (Instr.addaReg 1 2).wellFormed = true ∧
    after (exec (.addaReg 1 2) { State.reset with fr := 0b110 }) (fun t => t.fr == 0b001) = true := by decide
theorem witness_HostStreamsAndStatusFrame :
    after (exec .nop State.reset) (fun t => t.pr == 1) = true ∧ Instr.nop ≠ .ret ∧
    Instr.nop.wellFormed = true := by decide
theorem witness_ReadGivesLastWrite : Memory.wf [(0xFFFF, 5)] = true ∧ State.reset.pr = 0 := by decide
theorem witness_EqualReadsAreEqualMemories :
    Memory.wf (Memory.write [(5, 1)] 9 2) = true ∧ Memory.write [(5, 1)] 9 2 = Memory.write [(9, 2)] 5 1 := by
  decide
theorem witness_StepKeepsSound :
    (machine [0x2410] 0x7FFF 1 0b110 0).sound = true ∧
    after (step (machine [0x2410] 0x7FFF 1 0b110 0)) (fun t => t.fr == 0b000) = true := by decide
theorem witness_ReachableStatesAreSound : Reachable (State.reset.hostMemory 0x10000 (-1)) :=
  .memory _ _ _ .before_load
theorem witness_ObjectCodecRoundTrip :
    decodeObject (encodeObject 7 [0x8100]) = .ok (7, [0x8100]) ∧
    ((encodeObject 7 [0x8100]).drop 6).take 10 = List.replicate 10 0 := by decide
/-- Each clause at the least length it covers, and the header clause at the greatest. -/
theorem witness_DecodeObjectCases :
    ([0x43, 0x41, 0x53] : List Byte).length < 4 ∧
    ([0x43, 0x41, 0x53, 0x58] : List Byte).take 4 ≠ [0x43, 0x41, 0x53, 0x4C] ∧
    (((encodeObject 0 []).take 4).take 4 = [0x43, 0x41, 0x53, 0x4C] ∧ ((encodeObject 0 []).take 15).length < 16) ∧
    (16 ≤ (encodeObject 0 [] ++ [0]).length ∧ ((encodeObject 0 [] ++ [0]).length - 16) % 2 = 1) ∧
    16 ≤ (encodeObject 0 []).length ∧ ((encodeObject 0 []).length - 16) % 2 = 0 := by decide
/-- An object file of `n` zero words decodes to them: the sizes on both sides of the limit. -/
theorem decodeObject_zeros (n : Nat) :
    decodeObject (encodeObject 0 (List.replicate n 0)) = .ok (0, List.replicate n 0) := by
  have h : (encodeObject 0 (List.replicate n 0)).length = 16 + 2 * n := by
    simp [encodeObject, Config.magic, wordBytes]
    omega
  have hd : (encodeObject 0 (List.replicate n 0)).drop Config.headerBytes =
      (List.replicate n (0 : Word)).flatMap wordBytes := rfl
  have ht : (encodeObject 0 (List.replicate n 0)).take 4 = Config.magic := rfl
  have h4 : (encodeObject 0 (List.replicate n 0)).getD 4 0#8 = 0 := rfl
  have h5 : (encodeObject 0 (List.replicate n 0)).getD 5 0#8 = 0 := rfl
  unfold decodeObject
  rw [h, hd, ht, h4, h5, imageWords_flatMap, if_neg (by simp; omega), if_neg (by simp [Config.headerBytes]),
    if_neg (by simp [Config.headerBytes])]
  rfl
theorem witness_LoadErrorCases :
    decodeObject [] = .error .badMagic ∧
    (decodeObject (encodeObject 0 (List.replicate 0xFF01 0)) = .ok (0, List.replicate 0xFF01 0) ∧
      0xFF00 < (List.replicate 0xFF01 (0 : Word)).length) ∧
    decodeObject (encodeObject 0 (List.replicate 0xFF00 0)) = .ok (0, List.replicate 0xFF00 0) ∧
      (List.replicate 0xFF00 (0 : Word)).length ≤ 0xFF00 :=
  ⟨by decide, ⟨decodeObject_zeros _, by rw [List.length_replicate]; omega⟩, decodeObject_zeros _,
    by rw [List.length_replicate]⟩
theorem witness_LoadIsTheReset :
    (List.replicate 0xFF00 (0 : Word)).length ≤ 0xFF00 ∧ ([] : List Word).length ≤ 0xFF00 :=
  ⟨by rw [List.length_replicate], by simp⟩
theorem witness_HostJumpAndMemory :
    (⟨State.reset, []⟩ : Session).perform (.addBreak 0x10010) = .done ⟨State.reset, [0x10]⟩ ∧
    (∀ bytes, HostCommand.addBreak 0x10010 ≠ .file bytes) ∧ (∀ n, HostCommand.addBreak 0x10010 ≠ .step n) ∧
    ∀ n, HostCommand.addBreak 0x10010 ≠ .run n := by
  refine ⟨by decide, ?_, ?_, ?_⟩ <;> intro _ h <;> cases h
theorem witness_StepCommandTakesSteps :
    after (step State.reset) (fun t => t.pr == 1) = true ∧
    ({ State.reset with status := .terminated } : State).status ≠ .running := by decide
/-- R211, R213: `step` alone takes one step; an inspection masks its address and reads. -/
theorem test_step_default :
    (⟨State.reset, []⟩ : Session).perform (.step none) = .done ⟨{ State.reset with pr := 1 }, []⟩ := by decide
theorem test_inspect :
    (⟨machine [0x1412] 0 0 0 0, [3]⟩ : Session).inspect (.dump 0x10000 2) = .words [(0, 0x1412), (1, 0)] ∧
    (⟨machine [0x1412] 0 0 0 0, [3]⟩ : Session).inspect (.disasm (-65536) 2) =
      .listing [(0, viewWord 0x1412), (1, viewWord 0)] ∧
    (⟨machine [0x1412] 0 0 0 0, [3]⟩ : Session).inspect .info = .breakpoints [3] := by decide
/-- R216, R240: a `RET` is loaded and run to its end; a refused file is a warning (log entry 26). -/
theorem test_quiet_run :
    (⟨State.reset, [0]⟩ : Session).quietRun 2 (encodeObject 0 [0x8100]) =
      .done ⟨{ State.reset with mem := [(0, 0x8100)], sp := 0xFF01, status := .terminated }, [0]⟩ ∧
    (⟨State.reset, [0]⟩ : Session).quietRun 2 [] = .warning .badMagic ⟨State.reset, [0]⟩ := by decide
/-- Two `NOP`s from reset stop at a breakpoint on address 2. -/
theorem witness_RunStopsAtTheFirstBreakpoint :
    State.reset.status = .running ∧
    runToBreakpoint [2] 5 State.reset = some (stepTimes 2 State.reset) ∧ (stepTimes 2 State.reset).pr ∈ [2#16] := by
  decide
theorem witness_RegisterFormChosenByOperand :
    (registerForm .LD).isSome = true ∧ parseRegister ['G', 'R', '7'] = some 7 ∧
    parseRegister ['G', 'R', '8'] = none ∧
    assemble (fun _ => none) (fun _ => none) .LD [['G', 'R', '7'], ['1', '2']] = .ok (.ldMem 7 0 12) ∧
    assemble (fun _ => none) (fun _ => none) .LD [['G', 'R', '7'], ['1', '2'], ['G', 'R', '1']] =
      .ok (.ldMem 7 1 12) := by decide
theorem witness_Gr0IsNoIndexOperand :
    indexOperand ['G', 'R', '1'] = .ok 1 ∧ indexOperand ['G', 'R', '7'] = .ok 7 ∧
    assemble (fun _ => none) (fun _ => none) .ST [['G', 'R', '7'], ['1', '2'], ['G', 'R', '1']] =
      .ok (.st 7 1 12) ∧
    (addressForm .CALL).isSome = true ∧
    assemble (fun _ => none) (fun _ => none) .CALL [['1', '2'], ['G', 'R', '7']] = .ok (.call 7 12) := by decide

/-- With a label, and without one. -/
theorem witness_SourceLineParts :
    parseLine "L1 RET".toList = .ok (some ⟨some ['L', '1'], ['R', 'E', 'T'], []⟩) ∧
    parseLine " RET".toList = .ok (some ⟨none, ['R', 'E', 'T'], []⟩) := by decide
theorem witness_DirectivesEmitTheirWords :
    (quotedWords ['-', '1'] = none ∧ parseNumber ['-', '1'] = some (-1)) ∧
    (isLabel ['N'] = true ∧ everyName ['N'] = some 0) ∧
    (Statement.data [['-', '1']]).emit everyName everyName everyName = .ok [0xFFFF] ∧
    resolveAdr everyName everyName ['5'] = .ok 5 ∧ resolveAdr everyName everyName ['=', '5'] = .ok 0 := by decide
theorem witness_AddressCounterCountsEmittedWords :
    (Statement.instruction .CALL [['N']]).emit (fun _ => none) (fun _ => some 7) (fun _ => none) =
      .ok [0x8000, 7] := by decide
/-- A block with a labelled second line and a literal, laid out from 5. -/
def block : Block := ⟨none, none, [⟨none, .space 2⟩, ⟨some ['N'], .instruction .LD [['G', 'R', '1'], ['=', '7']]⟩]⟩
theorem witness_ImageIsContiguous :
    block.place 5 = .ok ⟨block, 5, [(['N'], 7)], 9, [(['7'], 9)], 10⟩ ∧
    Placed.words [] ⟨block, 5, [(['N'], 7)], 9, [(['7'], 9)], 10⟩ = .ok [0, 0, 0x1010, 9, 7] ∧
    block.lines = [⟨none, .space 2⟩] ++ ⟨some ['N'], .instruction .LD [['G', 'R', '1'], ['=', '7']]⟩ :: [] ∧
    (placeBlocks 5 [block]).map (List.map Placed.first) = .ok [5] := by decide

end Sys2Proof.Tests
end

section
/-! SUPPORT. What an instruction can do to the state, said once for all 38 (`Effect`, `Meaning`): the field
check that R82 puts first, and the state function behind it. The state's invariant, the frames of 10_state.md
and the flag rules are read off it. -/

namespace Sys2Proof.Machine

open Sys2Proof.Spec

/-! ## Register fields -/

theorem field_mk (f : Field) (h : f.toNat < 8) : field ⟨f.toNat, h⟩ = f := by
  simp [field]

theorem field_injective : Function.Injective field := by decide

theorem namesRegister_iff (f : Field) : f.namesRegister = true ↔ f.toNat < 8 := by
  simp [Field.namesRegister]

theorem wellFormed_iff (i : Instr) : i.wellFormed = true ↔ ∀ f ∈ i.registerFields, f.toNat < 8 := by
  simp [Instr.wellFormed, List.all_eq_true, namesRegister_iff]

theorem not_wellFormed_iff (i : Instr) :
    ¬ i.wellFormed = true ↔ ∃ f ∈ i.registerFields, 8 ≤ f.toNat := by
  simp [wellFormed_iff]

/-! ## Flags that follow a result -/

/-- R28, R29: FR is written from the result, with OF = 0 unless the instruction may set it. -/
def FlagsFollow (mayOverflow : Bool) (result : Word) (flags : BitVec 3) : Prop :=
  ∃ overflow, (mayOverflow = false → overflow = false) ∧ flags = frOf overflow result

theorem flagsFollow_mayOverflow (overflow : Bool) (v : Word) : FlagsFollow true v (frOf overflow v) :=
  ⟨overflow, by simp, rfl⟩

theorem flagsFollow_noOverflow (v : Word) : FlagsFollow false v (frOf false v) :=
  ⟨false, by simp, rfl⟩

theorem FlagsFollow.legalFr_flags {mayOverflow : Bool} {v : Word} {flags : BitVec 3}
    (h : FlagsFollow mayOverflow v flags) : legalFr flags = true := by
  obtain ⟨overflow, -, rfl⟩ := h
  exact legalFr_frOf overflow v

/-! ## The effect of an instruction whose fields name registers -/

/-- The state functions that are the meaning of `i` once its register fields name registers: one constructor
for the instructions that write a result and FR, one for the compares, one for the jumps, and one for each
instruction with a meaning of its own. -/
inductive Effect (i : Instr) : (State → State) → Prop
  /-- R105, R135: a result, computed without FR, in the destination register and its flags in FR. -/
  | result (r : Reg) (out : State → Word × BitVec 3) (length : Nat)
      (hdest : destination i = some (field r)) (hwrites : writesFr i = true)
      (hflags : ∀ s, FlagsFollow (maySetOf i) (out s).1 (out s).2)
      (hblind : ∀ s f, out (s.setFr f) = out s) : Effect i fun s => s.finishAlu r (out s) length
  /-- R109: the flags of a saturated difference, computed without FR. -/
  | compare (value : State → Word) (length : Nat)
      (hdest : destination i = none) (hwrites : writesFr i = true) (hof : maySetOf i = false)
      (hblind : ∀ s f, value (s.setFr f) = value s) :
      Effect i fun s => (s.setFr (frOf false (value s))).advance length
  /-- R148: a jump whose condition reads the bits R31 names. -/
  | jump (taken : State → Bool) (xr : Field) (adr : Word)
      (hwrites : writesFr i = false) (hsp : ∀ s, spAfter i s = s.sp)
      (hreads : ∀ s f, (∀ k ∈ readsFr i, f.getLsbD k = s.fr.getLsbD k) → taken (s.setFr f) = taken s) :
      Effect i fun s => if taken s then s.setPr (effectiveAddress s xr adr) else s.advance 2
  | st (r : Reg) (xr : Field) (adr : Word) (hi : i = .st (field r) xr adr) :
      Effect i fun s => (s.writeMem (effectiveAddress s xr adr) (s.readGr r)).advance 2
  | lad (r : Reg) (xr : Field) (adr : Word) (hi : i = .lad (field r) xr adr) :
      Effect i fun s => (s.writeGr r (effectiveAddress s xr adr)).advance 2
  | push (xr : Field) (adr : Word) (hi : i = .push xr adr) :
      Effect i fun s => (s.pushWord (effectiveAddress s xr adr)).advance 2
  | pop (r : Reg) (hi : i = .pop (field r)) :
      Effect i fun s => (s.writeGr r s.topWord).dropWord.advance 1
  | call (xr : Field) (adr : Word) (hi : i = .call xr adr) :
      Effect i fun s => (s.pushWord (s.pr + 2#16)).setPr (effectiveAddress s xr adr)
  | ret (hi : i = .ret) :
      Effect i fun s =>
        if Config.stackTop.toNat < s.sp.toNat + 1 then ((s.setPr s.topWord).dropWord).setStatus .terminated
        else (s.setPr s.topWord).dropWord
  | svc (xr : Field) (adr : Word) (hi : i = .svc xr adr) :
      Effect i fun s => (s.service (effectiveAddress s xr adr)).advance 2
  | nop (hi : i = .nop) : Effect i fun s => s.advance 1

/-- R82: a meaning of `i` checks the register fields of `i` in their order, and then takes its effect. -/
inductive Meaning (i : Instr) : (State → Result) → Prop
  | noField (g : State → State) (hfields : i.registerFields = []) (heffect : Effect i g) :
      Meaning i fun s => .next (g s)
  | oneField (f : Field) (g : Reg → State → State) (hfields : i.registerFields = [f])
      (heffect : ∀ r, field r = f → Effect i (g r)) :
      Meaning i fun s => withRegister f s fun r => .next (g r s)
  | twoFields (f₁ f₂ : Field) (g : Reg → Reg → State → State) (hfields : i.registerFields = [f₁, f₂])
      (heffect : ∀ r q, field r = f₁ → Effect i (g r q)) :
      Meaning i fun s => withRegister f₁ s fun r => withRegister f₂ s fun q => .next (g r q s)

/-! ## Each shared form is a meaning -/

section Forms
variable {i : Instr}

theorem meaning_aluMemory (f : Alu) (gr xr : Field) (adr : Word) (hfields : i.registerFields = [gr])
    (hdest : destination i = some gr) (hwrites : writesFr i = true)
    (hflags : ∀ a b, FlagsFollow (maySetOf i) (f a b).1 (f a b).2) : Meaning i (aluMemory f gr xr adr) :=
  .oneField gr (fun r s => s.finishAlu r (f (s.readGr r) (s.readMem (effectiveAddress s xr adr))) 2) hfields
    fun r hr => .result r (fun s => f (s.readGr r) (s.readMem (effectiveAddress s xr adr))) 2
      (hr ▸ hdest) hwrites (fun _ => hflags _ _) fun _ _ => rfl

theorem meaning_aluRegister (f : Alu) (r1 r2 : Field) (hfields : i.registerFields = [r1, r2])
    (hdest : destination i = some r1) (hwrites : writesFr i = true)
    (hflags : ∀ a b, FlagsFollow (maySetOf i) (f a b).1 (f a b).2) : Meaning i (aluRegister f r1 r2) :=
  .twoFields r1 r2 (fun r q s => s.finishAlu r (f (s.readGr r) (s.readGr q)) 1) hfields
    fun r q hr => .result r (fun s => f (s.readGr r) (s.readGr q)) 1
      (hr ▸ hdest) hwrites (fun _ => hflags _ _) fun _ _ => rfl

theorem meaning_shiftBy (f : Word → Nat → Word × BitVec 3) (gr xr : Field) (adr : Word)
    (hfields : i.registerFields = [gr]) (hdest : destination i = some gr) (hwrites : writesFr i = true)
    (hflags : ∀ a n, FlagsFollow (maySetOf i) (f a n).1 (f a n).2) : Meaning i (shiftBy f gr xr adr) :=
  .oneField gr (fun r s => s.finishAlu r (f (s.readGr r) (effectiveAddress s xr adr).toNat) 2) hfields
    fun r hr => .result r (fun s => f (s.readGr r) (effectiveAddress s xr adr).toNat) 2
      (hr ▸ hdest) hwrites (fun _ => hflags _ _) fun _ _ => rfl

theorem meaning_compareMemory (d : Word → Word → Int) (gr xr : Field) (adr : Word)
    (hfields : i.registerFields = [gr]) (hdest : destination i = none) (hwrites : writesFr i = true)
    (hof : maySetOf i = false) : Meaning i (compareMemory (fun a b => compareResult (d a b)) gr xr adr) :=
  .oneField gr (fun r s =>
      (s.setFr (compareResult (d (s.readGr r) (s.readMem (effectiveAddress s xr adr))))).advance 2) hfields
    fun r _ => .compare (fun s => wrap (saturate (d (s.readGr r) (s.readMem (effectiveAddress s xr adr))))) 2
      hdest hwrites hof fun _ _ => rfl

theorem meaning_compareRegister (d : Word → Word → Int) (r1 r2 : Field)
    (hfields : i.registerFields = [r1, r2]) (hdest : destination i = none) (hwrites : writesFr i = true)
    (hof : maySetOf i = false) : Meaning i (compareRegister (fun a b => compareResult (d a b)) r1 r2) :=
  .twoFields r1 r2 (fun r q s => (s.setFr (compareResult (d (s.readGr r) (s.readGr q)))).advance 1) hfields
    fun r q _ => .compare (fun s => wrap (saturate (d (s.readGr r) (s.readGr q)))) 1
      hdest hwrites hof fun _ _ => rfl

theorem meaning_jumpWhen (taken : State → Bool) (xr : Field) (adr : Word) (hfields : i.registerFields = [])
    (hwrites : writesFr i = false) (hsp : ∀ s, spAfter i s = s.sp)
    (hreads : ∀ s f, (∀ k ∈ readsFr i, f.getLsbD k = s.fr.getLsbD k) → taken (s.setFr f) = taken s) :
    Meaning i fun s => jumpWhen (taken s) xr adr s :=
  .noField _ hfields (.jump taken xr adr hwrites hsp hreads)

end Forms

/-- Every arm of the dispatch is a meaning: the one case split over the 38 instructions. -/
theorem exec_meaning (i : Instr) : Meaning i (exec i) :=
  have overflows := flagsFollow_mayOverflow
  have plain := flagsFollow_noOverflow
  match i with
  | .nop => .noField _ rfl (.nop rfl)
  | .ldMem gr xr adr => meaning_aluMemory (fun _ v => (v, frOf false v)) gr xr adr rfl rfl rfl fun _ _ => plain _
  | .ldReg r1 r2 => meaning_aluRegister (fun _ v => (v, frOf false v)) r1 r2 rfl rfl rfl fun _ _ => plain _
  | .st gr xr adr => .oneField gr (fun r s => (s.writeMem (effectiveAddress s xr adr) (s.readGr r)).advance 2)
      rfl fun r hr => .st r xr adr (by rw [hr])
  | .lad gr xr adr => .oneField gr (fun r s => (s.writeGr r (effectiveAddress s xr adr)).advance 2)
      rfl fun r hr => .lad r xr adr (by rw [hr])
  | .addaMem gr xr adr => meaning_aluMemory aluAdda gr xr adr rfl rfl rfl fun _ _ => overflows _ _
  | .subaMem gr xr adr => meaning_aluMemory aluSuba gr xr adr rfl rfl rfl fun _ _ => overflows _ _
  | .addlMem gr xr adr => meaning_aluMemory aluAddl gr xr adr rfl rfl rfl fun _ _ => overflows _ _
  | .sublMem gr xr adr => meaning_aluMemory aluSubl gr xr adr rfl rfl rfl fun _ _ => overflows _ _
  | .addaReg r1 r2 => meaning_aluRegister aluAdda r1 r2 rfl rfl rfl fun _ _ => overflows _ _
  | .subaReg r1 r2 => meaning_aluRegister aluSuba r1 r2 rfl rfl rfl fun _ _ => overflows _ _
  | .addlReg r1 r2 => meaning_aluRegister aluAddl r1 r2 rfl rfl rfl fun _ _ => overflows _ _
  | .sublReg r1 r2 => meaning_aluRegister aluSubl r1 r2 rfl rfl rfl fun _ _ => overflows _ _
  | .andMem gr xr adr => meaning_aluMemory aluAnd gr xr adr rfl rfl rfl fun _ _ => plain _
  | .orMem gr xr adr => meaning_aluMemory aluOr gr xr adr rfl rfl rfl fun _ _ => plain _
  | .xorMem gr xr adr => meaning_aluMemory aluXor gr xr adr rfl rfl rfl fun _ _ => plain _
  | .andReg r1 r2 => meaning_aluRegister aluAnd r1 r2 rfl rfl rfl fun _ _ => plain _
  | .orReg r1 r2 => meaning_aluRegister aluOr r1 r2 rfl rfl rfl fun _ _ => plain _
  | .xorReg r1 r2 => meaning_aluRegister aluXor r1 r2 rfl rfl rfl fun _ _ => plain _
  | .cpaMem gr xr adr => meaning_compareMemory (fun a b => signed a - signed b) gr xr adr rfl rfl rfl rfl
  | .cplMem gr xr adr => meaning_compareMemory (fun a b => unsigned a - unsigned b) gr xr adr rfl rfl rfl rfl
  | .cpaReg r1 r2 => meaning_compareRegister (fun a b => signed a - signed b) r1 r2 rfl rfl rfl rfl
  | .cplReg r1 r2 => meaning_compareRegister (fun a b => unsigned a - unsigned b) r1 r2 rfl rfl rfl rfl
  | .sla gr xr adr => meaning_shiftBy shiftSla gr xr adr rfl rfl rfl fun _ _ => overflows _ _
  | .sra gr xr adr => meaning_shiftBy shiftSra gr xr adr rfl rfl rfl fun _ _ => overflows _ _
  | .sll gr xr adr => meaning_shiftBy shiftSll gr xr adr rfl rfl rfl fun _ _ => overflows _ _
  | .srl gr xr adr => meaning_shiftBy shiftSrl gr xr adr rfl rfl rfl fun _ _ => overflows _ _
  | .jmi xr adr => meaning_jumpWhen State.signFlag xr adr rfl rfl (fun _ => rfl)
      fun _ _ h => h 1 (by simp [readsFr])
  | .jnz xr adr => meaning_jumpWhen (fun s => !s.zeroFlag) xr adr rfl rfl (fun _ => rfl)
      fun _ _ h => congrArg not (h 0 (by simp [readsFr]))
  | .jze xr adr => meaning_jumpWhen State.zeroFlag xr adr rfl rfl (fun _ => rfl)
      fun _ _ h => h 0 (by simp [readsFr])
  | .jump xr adr => meaning_jumpWhen (fun _ => true) xr adr rfl rfl (fun _ => rfl) fun _ _ _ => rfl
  | .jpl xr adr => meaning_jumpWhen (fun s => !s.signFlag && !s.zeroFlag) xr adr rfl rfl (fun _ => rfl)
      fun _ _ h => congrArg₂ (fun sf zf => !sf && !zf) (h 1 (by simp [readsFr])) (h 0 (by simp [readsFr]))
  | .jov xr adr => meaning_jumpWhen State.overflowFlag xr adr rfl rfl (fun _ => rfl)
      fun _ _ h => h 2 (by simp [readsFr])
  | .push xr adr => .noField _ rfl (.push xr adr rfl)
  | .pop gr => .oneField gr (fun r s => (s.writeGr r s.topWord).dropWord.advance 1)
      rfl fun r hr => .pop r (by rw [hr])
  | .call xr adr => .noField _ rfl (.call xr adr rfl)
  | .ret => .noField _ rfl (.ret rfl)
  | .svc xr adr => .noField _ rfl (.svc xr adr rfl)

/-! ## What exec and step answer -/

theorem Meaning.of_wellFormed {i : Instr} {m : State → Result} (hm : Meaning i m)
    (h : i.wellFormed = true) : ∃ g, Effect i g ∧ ∀ s, m s = .next (g s) := by
  rw [wellFormed_iff] at h
  cases hm with
  | noField g _ heffect => exact ⟨g, heffect, fun _ => rfl⟩
  | oneField f g hfields heffect =>
    have hf : f.toNat < 8 := h f (by simp [hfields])
    exact ⟨_, heffect ⟨f.toNat, hf⟩ (field_mk f hf), fun s => withRegister_of_lt f s _ hf⟩
  | twoFields f₁ f₂ g hfields heffect =>
    have h₁ : f₁.toNat < 8 := h f₁ (by simp [hfields])
    have h₂ : f₂.toNat < 8 := h f₂ (by simp [hfields])
    refine ⟨_, heffect ⟨f₁.toNat, h₁⟩ ⟨f₂.toNat, h₂⟩ (field_mk f₁ h₁), fun s => ?_⟩
    exact (withRegister_of_lt f₁ s _ h₁).trans (withRegister_of_lt f₂ s _ h₂)

theorem Meaning.of_not_wellFormed {i : Instr} {m : State → Result} (hm : Meaning i m)
    (h : ¬ i.wellFormed = true) (s : State) : m s = .next (illegalAt s) := by
  rw [not_wellFormed_iff] at h
  cases hm with
  | noField g hfields _ => simp [hfields] at h
  | oneField f g hfields _ =>
    have hf : 8 ≤ f.toNat := by simpa [hfields] using h
    exact withRegister_of_ge f s _ hf
  | twoFields f₁ f₂ g hfields _ =>
    have hf : 8 ≤ f₁.toNat ∨ 8 ≤ f₂.toNat := by simpa [hfields] using h
    by_cases h₁ : 8 ≤ f₁.toNat
    · exact withRegister_of_ge f₁ s _ h₁
    · have h₂ : 8 ≤ f₂.toNat := hf.resolve_left h₁
      exact (withRegister_of_lt f₁ s _ (by omega)).trans (withRegister_of_ge f₂ s _ h₂)

/-- An instruction whose fields name registers takes its effect, the same function in every state. -/
theorem exec_of_wellFormed (i : Instr) (h : i.wellFormed = true) :
    ∃ g, Effect i g ∧ ∀ s, exec i s = .next (g s) :=
  (exec_meaning i).of_wellFormed h

/-- R22, R201: a used field of 8..15 raises the exception. -/
theorem exec_of_not_wellFormed (i : Instr) (h : ¬ i.wellFormed = true) (s : State) :
    exec i s = .next (illegalAt s) :=
  (exec_meaning i).of_not_wellFormed h s

/-- Everything `exec` can answer. -/
theorem exec_next (i : Instr) (s t : State) (h : exec i s = .next t) :
    (i.wellFormed = true ∧ ∃ g, Effect i g ∧ t = g s) ∨ (¬ i.wellFormed = true ∧ t = illegalAt s) := by
  by_cases hi : i.wellFormed = true
  · obtain ⟨g, hg, hexec⟩ := exec_of_wellFormed i hi
    rw [hexec s] at h
    exact .inl ⟨hi, g, hg, by cases h; rfl⟩
  · rw [exec_of_not_wellFormed i hi s] at h
    exact .inr ⟨hi, by cases h; rfl⟩

/-- R35, R208: a final run status takes no step. -/
theorem step_of_not_running (s : State) (h : s.status ≠ .running) :
    step s = .fault (.notRunning s.status) := by
  unfold step
  split
  · exact absurd ‹_› h
  · rfl

/-- R82: a step executes the decoded instruction or raises the exception. -/
theorem step_next (s t : State) (h : step s = .next t) : (∃ i, exec i s = .next t) ∨ t = illegalAt s := by
  unfold step at h
  split at h
  · split at h
    · exact .inl ⟨_, h⟩
    · exact .inr (by cases h; rfl)
  · cases h

/-! ## FR beside the services

The service reads no flags, so it commutes with a write of FR. -/

theorem hostIn_setFr (s : State) (f : BitVec 3) :
    (s.setFr f).hostIn = (s.hostIn.1, s.hostIn.2.setFr f) := by
  cases hinput : s.input with
  | nil => rw [hostIn_free s hinput, hostIn_free (s.setFr f) hinput]; rfl
  | cons line rest => rw [hostIn_queued s line rest hinput, hostIn_queued (s.setFr f) line rest hinput]; rfl

theorem storeBytes_setFr (s : State) (f : BitVec 3) (a : Word) (bs : List Byte) :
    (s.setFr f).storeBytes a bs = (s.storeBytes a bs).setFr f := by
  induction bs generalizing s a with
  | nil => rfl
  | cons b bs ih => exact ih (s.writeMem a (zext16 b)) (a + 1#16)

theorem serviceIn_setFr (s : State) (f : BitVec 3) : (s.setFr f).serviceIn = s.serviceIn.setFr f := by
  unfold State.serviceIn
  rw [hostIn_setFr]
  exact storeBytes_setFr (s.hostIn.2.writeMem _ _) f _ _

theorem serviceOut_setFr (s : State) (f : BitVec 3) : (s.setFr f).serviceOut = s.serviceOut.setFr f := by
  unfold State.serviceOut
  simp only [loadBytes_eq, State.readGr_setFr, State.readMem_setFr]
  rfl

theorem service_setFr (s : State) (f : BitVec 3) (number : Word) :
    (s.setFr f).service number = (s.service number).setFr f := by
  unfold State.service
  split
  · exact serviceIn_setFr s f
  · split
    · exact serviceOut_setFr s f
    · rfl

/-! ## What each effect keeps and changes -/

/-- R27, R29: what writes FR leaves SP. -/
theorem spAfter_of_writesFr (i : Instr) (s : State) (h : writesFr i = true) : spAfter i s = s.sp := by
  cases i with
  | push | call | pop | ret => simp [writesFr] at h
  | _ => rfl

/-- R27: only `POP` of the instructions that move SP uses a register field. -/
theorem spAfter_of_not_wellFormed (i : Instr) (s : State) (h : ¬ i.wellFormed = true) :
    spAfter i s = s.sp := by
  obtain ⟨f, hf, hge⟩ := (not_wellFormed_iff i).1 h
  cases i with
  | pop g =>
    obtain rfl : f = g := by simpa [Instr.registerFields] using hf
    exact if_neg (Nat.not_lt.2 hge)
  | push | call | ret => simp [Instr.registerFields] at hf
  | _ => rfl

namespace Effect
variable {i : Instr} {g : State → State}

/-- R21: an effect writes no general register but the destination. -/
theorem gr_of_ne_destination (h : Effect i g) (s : State) (r : Reg) (hr : destination i ≠ some (field r)) :
    (g s).gr[r] = s.gr[r] := by
  have set_other : ∀ (q : Reg) (v : Word), destination i = some (field q) → (s.gr.set q v)[r] = s.gr[r] := by
    intro q v hq
    have hne : q ≠ r := by rintro rfl; exact hr hq
    simp [Fin.val_ne_of_ne hne]
  cases h with
  | result q out length hdest => exact set_other q _ hdest
  | lad q xr adr hi => exact set_other q _ (by rw [hi]; rfl)
  | pop q hi => exact set_other q _ (by rw [hi]; rfl)
  | jump => simp [apply_ite State.gr]
  | ret => simp [apply_ite State.gr]
  | svc => simp
  | compare | st | push | call | nop => rfl

/-- R27: SP after an effect. -/
theorem sp_eq_spAfter (h : Effect i g) (s : State) : (g s).sp = spAfter i s := by
  cases h with
  | result r out length hdest hwrites => exact (spAfter_of_writesFr i s hwrites).symm
  | compare value length hdest hwrites => exact (spAfter_of_writesFr i s hwrites).symm
  | jump taken xr adr hwrites hsp => simpa [apply_ite State.sp] using (hsp s).symm
  | pop r hi =>
    have hr : (field r).toNat < 8 := by simp [field]; omega
    subst hi
    exact (if_pos hr).symm
  | ret hi => subst hi; simp only [apply_ite State.sp, State.setStatus_sp, ite_self]; rfl
  | svc xr adr hi => subst hi; exact service_sp s _
  | st r xr adr hi | lad r xr adr hi | push xr adr hi | call xr adr hi => subst hi; rfl
  | nop hi => subst hi; rfl

/-- R28, R29: an effect that writes FR writes the flags of a value, which is its result where it has one. -/
theorem flagsFollow (h : Effect i g) (hwrites : writesFr i = true) (s : State) :
    ∃ v, FlagsFollow (maySetOf i) v (g s).fr ∧ ∀ r, destination i = some (field r) → v = (g s).gr[r] := by
  cases h with
  | result r out length hdest _ hflags =>
    refine ⟨(out s).1, hflags s, fun q hq => ?_⟩
    obtain rfl : r = q := field_injective (Option.some.inj (hdest.symm.trans hq))
    simp
  | compare value length hdest _ hof =>
    exact ⟨value s, hof ▸ flagsFollow_noOverflow _, fun r hr => by simp [hdest] at hr⟩
  | _ => simp_all [writesFr]

/-- R30: an effect of an instruction outside R29 keeps FR. -/
theorem fr_of_not_writesFr (h : Effect i g) (hwrites : writesFr i = false) (s : State) :
    (g s).fr = s.fr := by
  cases h with
  | result r out length hdest hdoes => simp [hdoes] at hwrites
  | compare value length hdest hdoes => simp [hdoes] at hwrites
  | jump => simp [apply_ite State.fr]
  | ret => simp [apply_ite State.fr]
  | svc => simp
  | st | lad | push | pop | call | nop => rfl

/-- R31: an effect that writes FR does not see what FR held. -/
theorem setFr_of_writesFr (h : Effect i g) (hwrites : writesFr i = true) (s : State) (f : BitVec 3) :
    g (s.setFr f) = g s := by
  cases h with
  | result r out length _ _ _ hblind => dsimp only; rw [hblind]; rfl
  | compare value length _ _ _ hblind => dsimp only; rw [hblind]; rfl
  | _ => simp_all [writesFr]

/-- R30, R31: an effect that does not write FR carries other flags along, when they agree where it reads. -/
theorem setFr_of_not_writesFr (h : Effect i g) (hwrites : writesFr i = false) (s : State) (f : BitVec 3)
    (hf : ∀ k ∈ readsFr i, f.getLsbD k = s.fr.getLsbD k) : g (s.setFr f) = (g s).setFr f := by
  cases h with
  | result r out length hdest hdoes => simp [hdoes] at hwrites
  | compare value length hdest hdoes => simp [hdoes] at hwrites
  | jump taken xr adr _ _ hreads => dsimp only; rw [hreads s f hf, apply_ite (State.setFr · f)]; rfl
  | ret => dsimp only; rw [apply_ite (State.setFr · f)]; rfl
  | svc xr adr => dsimp only [effectiveAddress_setFr]; rw [service_setFr]; rfl
  | st | lad | push | pop | call | nop => rfl

/-- Every effect keeps the canonical form of memory. -/
theorem wf_mem (h : Effect i g) (s : State) (hs : Memory.wf s.mem = true) : Memory.wf (g s).mem = true := by
  cases h with
  | st => exact State.wf_writeMem s _ _ hs
  | push | call => exact State.wf_pushWord s _ hs
  | svc => exact wf_service s _ hs
  | jump => simpa [apply_ite State.mem] using hs
  | ret => simpa [apply_ite State.mem] using hs
  | result | compare | lad | pop | nop => exact hs

/-- R33: every effect keeps FR one of its six values. -/
theorem legalFr_fr (h : Effect i g) (s : State) (hs : legalFr s.fr = true) :
    legalFr (g s).fr = true := by
  by_cases hwrites : writesFr i = true
  · obtain ⟨v, hv, -⟩ := h.flagsFollow hwrites s
    exact hv.legalFr_flags
  · rwa [h.fr_of_not_writesFr (by simpa using hwrites) s]

end Effect

/-- R31: flags an instruction does not read reach nothing but FR. -/
theorem exec_setFr_of_unread (i : Instr) (s t : State) (f : BitVec 3)
    (hf : ∀ k ∈ readsFr i, f.getLsbD k = s.fr.getLsbD k) (hexec : exec i s = .next t) :
    ∃ f', exec i (s.setFr f) = .next (t.setFr f') := by
  by_cases hwf : i.wellFormed = true
  · obtain ⟨g, hg, heq⟩ := exec_of_wellFormed i hwf
    rw [heq] at hexec ⊢
    cases hexec
    by_cases hwrites : writesFr i = true
    · exact ⟨(g s).fr, congrArg _ (hg.setFr_of_writesFr hwrites s f)⟩
    · exact ⟨f, congrArg _ (hg.setFr_of_not_writesFr (by simpa using hwrites) s f hf)⟩
  · rw [exec_of_not_wellFormed i hwf] at hexec ⊢
    cases hexec
    exact ⟨f, rfl⟩

/-! ## The invariant -/

theorem sound_iff (s : State) : s.sound = true ↔ Memory.wf s.mem = true ∧ legalFr s.fr = true := by
  simp [State.sound]

theorem exec_sound (i : Instr) (s t : State) (hs : s.sound = true) (h : exec i s = .next t) :
    t.sound = true := by
  obtain ⟨hmem, hfr⟩ := (sound_iff s).1 hs
  rcases exec_next i s t h with ⟨-, g, hg, rfl⟩ | ⟨-, rfl⟩
  · exact (sound_iff _).2 ⟨hg.wf_mem s hmem, hg.legalFr_fr s hfr⟩
  · exact hs

theorem step_sound (s t : State) (hs : s.sound = true) (h : step s = .next t) : t.sound = true := by
  rcases step_next s t h with ⟨i, hexec⟩ | rfl
  · exact exec_sound i s t hs hexec
  · exact hs

theorem reset_sound : State.reset.sound = true := by decide

/-- R240, R241: what a load that succeeds leaves. -/
theorem load_loaded (s t : State) (f : List Byte) (h : s.load f = .loaded t) :
    ∃ entry image, image.length ≤ Config.maxImageWords ∧ t = s.loadImage entry image := by
  unfold State.load at h
  split at h
  · cases h
  · split at h
    · cases h
    · rename_i hlen
      exact ⟨_, _, Nat.not_lt.1 hlen, by cases h; rfl⟩

/-- R241: the state after a load is sound, whatever stood before it. -/
theorem loadImage_sound (s : State) (entry : Word) (image : List Word)
    (h : image.length ≤ Config.maxImageWords) : (s.loadImage entry image).sound = true := by
  have hfits : 0 + image.length ≤ Config.memWords := by
    have : Config.maxImageWords ≤ Config.memWords := by decide
    omega
  exact (sound_iff _).2 ⟨wf_imageMemory 0 image hfits, rfl⟩

theorem hostMemory_sound (s : State) (addr val : Int) (hs : s.sound = true) :
    (s.hostMemory addr val).sound = true := by
  obtain ⟨hmem, hfr⟩ := (sound_iff s).1 hs
  exact (sound_iff _).2 ⟨State.wf_writeMem s _ _ hmem, hfr⟩

theorem reachable_sound (s : State) (h : Reachable s) : s.sound = true := by
  induction h with
  | before_load => exact reset_sound
  | load s t f _ hload _ =>
    obtain ⟨entry, image, hlen, rfl⟩ := load_loaded s t f hload
    exact loadImage_sound s entry image hlen
  | step s t _ hstep hs => exact step_sound s t hs hstep
  | jump s addr _ hs => exact hs
  | memory s addr val _ hs => exact hostMemory_sound s addr val hs
  | supply s line _ hs => exact hs

/-- R33: the six values, listed. -/
theorem mem_of_legalFr : ∀ f : BitVec 3, legalFr f = true → f ∈ [0b000#3, 0b001, 0b010, 0b100, 0b101, 0b110] := by
  decide

/-! ## The bits of FR -/

theorem frOf_eq (overflow : Bool) (v : Word) :
    frOf overflow v = (if overflow then 4#3 else 0#3) ||| flagsOf v := by
  cases overflow <;> rfl

/-- R28: FR is OF, bit 15 of the result and whether it is zero. -/
theorem frOf_bits (overflow : Bool) (v : Word) :
    (frOf overflow v).getLsbD 2 = overflow ∧ (frOf overflow v).getLsbD 1 = v.getLsbD 15 ∧
      (frOf overflow v).getLsbD 0 = decide (v = 0) := by
  rw [frOf_eq, flagsOf]
  by_cases hv : v = 0x0000#16
  · subst hv
    cases overflow <;> decide
  · cases hsign : v.getLsbD 15 <;> cases overflow <;> simp [hv]

end Sys2Proof.Machine

namespace Sys2Proof.Proofs

open Sys2Proof.Machine Sys2Proof.Spec

/-- Settles O44: every effect keeps each half of the invariant, and the exception writes neither. -/
theorem stepKeepsSound : Obligations.StepKeepsSound :=
  step_sound

/-- Settles O11: an instruction with such a field is not well formed, and none of those takes an effect. -/
theorem registerFieldAboveSevenIsIllegal : Obligations.RegisterFieldAboveSevenIsIllegal :=
  fun i s hfield => exec_of_not_wellFormed i ((not_wellFormed_iff i).2 hfield) s

/-- Settles O16: the bits of `frOf`, and the flags every effect that writes FR writes. -/
theorem resultFlagsRule : Obligations.ResultFlagsRule := by
  refine ⟨fun v => rfl, fun overflow v => ?_, fun i s t hexec hwrites hwf => ?_⟩
  · obtain ⟨hof, hsf, hzf⟩ := frOf_bits overflow v
    exact ⟨frOf_eq overflow v, hof, hsf, hzf, legalFr_frOf overflow v⟩
  · rcases exec_next i s t hexec with ⟨-, g, hg, rfl⟩ | ⟨hnot, -⟩
    · obtain ⟨v, ⟨overflow, hof, hfr⟩, hdest⟩ := hg.flagsFollow hwrites s
      exact ⟨overflow, v, hfr, hof, hdest⟩
    · exact absurd hwf hnot

/-- Settles O36, by the register frame of an effect. -/
theorem onlyTheDestinationRegisterChanges : Obligations.OnlyTheDestinationRegisterChanges := by
  intro i s t r hexec hr
  rcases exec_next i s t hexec with ⟨-, g, hg, rfl⟩ | ⟨-, rfl⟩
  · exact hg.gr_of_ne_destination s r hr
  · rfl

/-- Settles O38, by SP after an effect; an instruction that raises the exception leaves SP. -/
theorem stackPointerMovesOnlyByStackInstructions :
    Obligations.StackPointerMovesOnlyByStackInstructions := by
  intro i s t hexec
  rcases exec_next i s t hexec with ⟨-, g, hg, rfl⟩ | ⟨hnot, rfl⟩
  · exact hg.sp_eq_spAfter s
  · exact (spAfter_of_not_wellFormed i s hnot).symm

/-- Settles O39, clause by clause, by how effects commute with a write of FR. -/
theorem flagsReachOnlyTheConditionalJumps : Obligations.FlagsReachOnlyTheConditionalJumps := by
  refine ⟨exec_setFr_of_unread, fun i s t hexec hwrites => ?_, fun i s t u f hexec hwrites hwf hexec' => ?_⟩
  · rcases exec_next i s t hexec with ⟨-, g, hg, rfl⟩ | ⟨-, rfl⟩
    · exact hg.fr_of_not_writesFr hwrites s
    · rfl
  · obtain ⟨g, hg, heq⟩ := exec_of_wellFormed i hwf
    rw [heq] at hexec hexec'
    cases hexec
    cases hexec'
    exact hg.setFr_of_writesFr hwrites s f

/-- Settles O45, by induction on how the state is reached. -/
theorem reachableStatesAreSound : Obligations.ReachableStatesAreSound := by
  intro s hs
  obtain ⟨hmem, hfr⟩ := (sound_iff s).1 (reachable_sound s hs)
  exact ⟨hmem, mem_of_legalFr s.fr hfr⟩

/-- Settles O12. -/
theorem finalStatusTakesNoStep : Obligations.FinalStatusTakesNoStep :=
  step_of_not_running

/-- Settles O43. -/
theorem resetIsSound : Obligations.ResetIsSound := by
  obtain ⟨hmem, hfr⟩ := (sound_iff _).1 reset_sound
  exact ⟨reset_sound, hmem, mem_of_legalFr _ hfr⟩

end Sys2Proof.Proofs
end

section
/-! SUPPORT. Memory in canonical form is determined by what it reads, and what an instruction has to do with
its index field: the address words of a decoded instruction and the run status after its effect. -/

namespace Sys2Proof.Machine

open Sys2Proof.Spec

/-! ## Canonical memories that read the same are equal -/

/-- A word is listed at or below the first cell of any canonical memory that reads the same. -/
theorem Memory.exists_mem_le_of_read_eq {k : Nat} {v : Word} {m m' : Memory}
    (hm : Memory.wf ((k, v) :: m) = true)
    (hread : ∀ a < Config.memWords, Memory.read ((k, v) :: m) a = Memory.read m' a) :
    ∃ c ∈ m', c.1 ≤ k := by
  obtain ⟨hk, hv, -, -⟩ := (Memory.wf_cons k v m).1 hm
  by_contra! hnone
  have hunwritten : v = Config.unwritten := by
    have := hread k hk
    rwa [Memory.read_cons, if_pos rfl, Memory.read_below m' k hnone] at this
  exact hv hunwritten

/-- Of two canonical memories that read the same, neither begins above the other. -/
theorem Memory.first_le_of_read_eq {k k' : Nat} {v v' : Word} {m m' : Memory}
    (hm : Memory.wf ((k, v) :: m) = true) (hm' : Memory.wf ((k', v') :: m') = true)
    (hread : ∀ a < Config.memWords, Memory.read ((k, v) :: m) a = Memory.read ((k', v') :: m') a) :
    k' ≤ k := by
  obtain ⟨-, -, hlow', -⟩ := (Memory.wf_cons k' v' m').1 hm'
  obtain ⟨c, hc, hck⟩ := Memory.exists_mem_le_of_read_eq hm hread
  rcases List.mem_cons.1 hc with rfl | hc
  · exact hck
  · exact (hlow' c hc).le.trans hck

/-- The memories behind equal first addresses read the same: below their cells both are unwritten. -/
theorem Memory.read_tail_eq {k : Nat} {v v' : Word} {m m' : Memory}
    (hm : Memory.wf ((k, v) :: m) = true) (hm' : Memory.wf ((k, v') :: m') = true)
    (hread : ∀ a < Config.memWords, Memory.read ((k, v) :: m) a = Memory.read ((k, v') :: m') a) :
    ∀ a < Config.memWords, Memory.read m a = Memory.read m' a := by
  obtain ⟨-, -, hlow, -⟩ := (Memory.wf_cons k v m).1 hm
  obtain ⟨-, -, hlow', -⟩ := (Memory.wf_cons k v' m').1 hm'
  intro a ha
  by_cases hka : k = a
  · subst hka
    rw [Memory.read_below m k hlow, Memory.read_below m' k hlow']
  · simpa [Memory.read_cons, hka] using hread a ha

/-- The canonical form is unique: reads determine the cells. -/
theorem Memory.eq_of_read_eq (m m' : Memory) (hm : Memory.wf m = true) (hm' : Memory.wf m' = true)
    (hread : ∀ a < Config.memWords, Memory.read m a = Memory.read m' a) : m = m' := by
  induction m generalizing m' with
  | nil =>
    cases m' with
    | nil => rfl
    | cons c' m' => simpa using Memory.exists_mem_le_of_read_eq hm' fun a ha => (hread a ha).symm
  | cons c m ih =>
    cases m' with
    | nil => simpa using Memory.exists_mem_le_of_read_eq hm hread
    | cons c' m' =>
      obtain ⟨k, v⟩ := c
      obtain ⟨k', v'⟩ := c'
      obtain rfl : k = k' := Nat.le_antisymm
        (Memory.first_le_of_read_eq hm' hm fun a ha => (hread a ha).symm)
        (Memory.first_le_of_read_eq hm hm' hread)
      obtain ⟨hk, -, -, hrest⟩ := (Memory.wf_cons k v m).1 hm
      obtain ⟨-, -, -, hrest'⟩ := (Memory.wf_cons k v' m').1 hm'
      obtain rfl : v = v' := by simpa [Memory.read_cons] using hread k hk
      rw [ih m' hrest hrest' (Memory.read_tail_eq hm hm' hread)]

/-! ## A read after a write -/

/-- R8 `MemRead` after `MemWrite`. -/
theorem State.readMem_writeMem (s : State) (a v b : Word) (hs : Memory.wf s.mem = true) :
    (s.writeMem a v).readMem b = if b = a then v else s.readMem b := by
  split
  · subst b
    exact State.readMem_writeMem_same s a v hs
  · exact State.readMem_writeMem_other s a b v (Ne.symm ‹_›)

/-! ## The effective address -/

/-- R52 `wrap(adr + (if 1 <= xr <= 7 then GR[xr] else 0))`, over the natural numbers. -/
theorem effectiveAddress_eq_ofNat (s : State) (xr : Field) (adr : Word) :
    effectiveAddress s xr adr =
      BitVec.ofNat 16 (adr.toNat +
        (if 1 ≤ xr.toNat ∧ xr.toNat ≤ 7 then (s.gr.toList.getD xr.toNat 0).toNat else 0)) := by
  by_cases hxr : 1 ≤ xr.toNat ∧ xr.toNat ≤ 7
  · have hgr : s.gr.toList.getD xr.toNat 0 = s.readGr ⟨xr.toNat, by omega⟩ := by
      have : xr.toNat < 8 := by omega
      simp [State.readGr, List.getD_eq_getElem?_getD, this]
    rw [effectiveAddress_indexed s xr adr hxr.1 hxr.2, if_pos hxr, hgr, BitVec.ofNat_add,
      BitVec.ofNat_toNat, BitVec.ofNat_toNat, BitVec.setWidth_eq, BitVec.setWidth_eq]
  · rw [effectiveAddress_plain s xr adr hxr, if_neg hxr, Nat.add_zero, BitVec.ofNat_toNat,
      BitVec.setWidth_eq]

/-- R52: GR0 is no index register. -/
theorem effectiveAddress_writeGr_zero (s : State) (v : Word) (xr : Field) (adr : Word) :
    effectiveAddress (s.writeGr 0 v) xr adr = effectiveAddress s xr adr := by
  by_cases hxr : 1 ≤ xr.toNat ∧ xr.toNat ≤ 7
  · have hne : (0 : Reg) ≠ ⟨xr.toNat, by omega⟩ := by
      rw [Ne, Fin.ext_iff]
      exact (Nat.ne_of_lt hxr.1)
    rw [effectiveAddress_indexed _ xr adr hxr.1 hxr.2, effectiveAddress_indexed _ xr adr hxr.1 hxr.2,
      State.readGr_writeGr, if_neg hne]
  · rw [effectiveAddress_plain _ xr adr hxr, effectiveAddress_plain _ xr adr hxr]

/-- R78, R84: a decoded two-word instruction has the opcode and the index field of its first word, and the
word that follows as its address word. The arms for one word contradict the size. -/
theorem encode_of_decode_of_size_two {word adr : Word} {i : Instr} (h : decode word adr = .ok i)
    (hsize : i.size = 2) : ∃ gr, encode i = [packWord (opOf word) gr (xrOf word), adr] := by
  unfold decode at h
  split at h <;> cases h
  all_goals
    rename_i hop
    rw [hop]
    cases hsize
  all_goals exact ⟨_, rfl⟩

/-! ## The run status after an effect -/

/-- R35, R202: only the effect of `RET` writes the run status. -/
theorem Effect.status_of_ne_ret {i : Instr} {g : State → State} (h : Effect i g) (hi : i ≠ .ret)
    (s : State) : (g s).status = s.status := by
  cases h with
  | jump => simp [apply_ite State.status]
  | ret hret => exact absurd hret hi
  | svc => simp
  | result | compare | st | lad | push | pop | call | nop => rfl

/-- R202: a well-formed instruction other than `RET` has a next state with the run status unchanged. -/
theorem exec_status_of_wellFormed (i : Instr) (s : State) (hwf : i.wellFormed = true) (hi : i ≠ .ret) :
    ∃ t, exec i s = .next t ∧ t.status = s.status := by
  obtain ⟨g, hg, hexec⟩ := exec_of_wellFormed i hwf
  exact ⟨g s, hexec s, hg.status_of_ne_ret hi s⟩

end Sys2Proof.Machine

namespace Sys2Proof.Proofs

open Sys2Proof.Machine

/-- Settles O15: the formula and GR0 by whether the field indexes, the two words from the decoder's arms,
and no exception because `RET` has one word. -/
theorem effectiveAddressRule : Obligations.EffectiveAddressRule := by
  refine ⟨fun s xr adr => ⟨effectiveAddress_eq_ofNat s xr adr, fun v => ?_⟩, fun s i hdecode hsize => ?_,
    fun i s hsize hwf => ?_⟩
  · exact effectiveAddress_writeGr_zero s v xr adr
  · obtain ⟨gr, hwords⟩ := encode_of_decode_of_size_two hdecode hsize
    simp [hwords]
  · have hret : i ≠ .ret := by rintro rfl; cases hsize
    exact exec_status_of_wellFormed i s hwf hret

/-- Settles O41: the read rule, the kept form, and a fetch as a read at PR. -/
theorem readGivesLastWrite : Obligations.ReadGivesLastWrite := by
  intro s a v b hs
  refine ⟨State.readMem_writeMem s a v b hs, State.wf_writeMem s a v hs, ?_⟩
  rintro rfl
  exact State.readMem_writeMem_same s s.pr v hs

/-- Settles O42: every number below the size of memory is the address of a word. -/
theorem equalReadsAreEqualMemories : Obligations.EqualReadsAreEqualMemories := by
  intro m m' hm hm' hread
  refine Memory.eq_of_read_eq m m' hm hm' fun a ha => ?_
  have haddr : (BitVec.ofNat 16 a).toNat = a := Nat.mod_eq_of_lt ha
  simpa only [haddr] using hread (BitVec.ofNat 16 a)

end Sys2Proof.Proofs
end

section
/-! SUPPORT. What the decoder reads, said once for all 38 rows of the opcode map: a word of a listed opcode
decodes to the instruction with the words its row's format reads, and any other word is refused. -/

namespace Sys2Proof

open Sys2Proof.Spec

/-! ## The opcode map -/

/-- R78: a row that is found is listed, under the opcode asked for. -/
theorem mem_and_op_of_lookupOp {op : BitVec 8} {row : OpRow} (h : lookupOp op = some row) :
    row ∈ opcodeMap ∧ row.op = op :=
  ⟨List.mem_of_find?_eq_some h, by simpa using List.find?_some h⟩

theorem lookupOp_eq_none_iff (op : BitVec 8) : lookupOp op = none ↔ ∀ row ∈ opcodeMap, row.op ≠ op := by
  simp [lookupOp]

/-! ## The words a format reads -/

/-- R72, R79: the words of an instruction, as its format reads them from a word and the word after it. -/
def formatWords : Format → Word → Word → List Word
  | .op1, word, adr | .op5Memory, word, adr => [packWord (opOf word) (grOf word) (xrOf word), adr]
  | .op2, word, adr => [packWord (opOf word) 0 (xrOf word), adr]
  | .op3, word, _ => [packWord (opOf word) (grOf word) 0]
  | .op4, word, _ => [packWord (opOf word) 0 0]
  | .op5Register, word, _ => [packWord (opOf word) (grOf word) (xrOf word)]

/-- A word masked field by field is packed from its masked fields. -/
theorem and_eq_packWord (word mask : Word) :
    word &&& mask =
      packWord (opOf word &&& opOf mask) (grOf word &&& grOf mask) (xrOf word &&& xrOf mask) := by
  rw [← packWord_fields (word &&& mask)]
  simp [opOf, grOf, xrOf, BitVec.extractLsb'_and]

theorem opOf_and_usedBits (f : Format) (word : Word) : opOf (word &&& usedBits f) = opOf word := by
  have hop : opOf (usedBits f) = BitVec.allOnes 8 := by cases f <;> rfl
  rw [and_eq_packWord, opOf_packWord, hop, BitVec.and_allOnes]

/-- R79: a format reads the bits it uses of the first word, and the second word if it has one. -/
theorem formatWords_eq (f : Format) (word adr : Word) :
    formatWords f word adr = (word &&& usedBits f) :: if f.words = 2 then [adr] else [] := by
  have whole (x : Field) : x &&& 15#4 = x := BitVec.and_allOnes
  rw [← packWord_fields (word &&& usedBits f), opOf_and_usedBits]
  cases f <;> simp [formatWords, Format.words, usedBits, grOf, xrOf, BitVec.extractLsb'_and, whole]

/-! ## The decoder -/

/-- R70 to R78: the arm of a packed opcode reads the packed fields back, for each instruction. -/
theorem decode_encode (i : Instr) (after : Word) :
    decode ((encode i).headD 0) ((encode i).getD 1 after) = .ok i := by
  cases i <;> simp only [encode, decode, List.headD_cons, List.getD_cons_succ, List.getD_cons_zero,
    opOf_packWord, grOf_packWord, xrOf_packWord]

theorem encode_injective : Function.Injective encode := fun i j h =>
  Except.ok.inj ((decode_encode i 0).symm.trans (h ▸ decode_encode j 0))

/-- Everything `decode` can answer: the one case split over its 39 arms. -/
theorem decode_cases (word adr : Word) :
    (∃ i row, decode word adr = .ok i ∧ lookupOp (opOf word) = some row ∧ row.mnemonic = i.mnemonic ∧
      encode i = formatWords row.format word adr) ∨
    (decode word adr = .error (.illegalOp (opOf word)) ∧ lookupOp (opOf word) = none) := by
  unfold decode
  split
  case h_39 =>
    refine .inr ⟨rfl, (lookupOp_eq_none_iff _).2 ?_⟩
    simp only [opcodeMap, opcodeMapLoadStore, opcodeMapArith, opcodeMapLogic, opcodeMapShiftJump,
      opcodeMapStackSystem, List.cons_append, List.nil_append, List.forall_mem_cons, ne_comm (b := opOf word)]
    simp_all
  all_goals
    rename_i hop
    refine .inl ⟨_, _, rfl, by rw [hop]; rfl, rfl, ?_⟩
    simp only [formatWords, hop]
    rfl

/-- R78, R79: what a decoded word gives of its row and of the instruction's words. -/
theorem decode_ok {word adr : Word} {i : Instr} (h : decode word adr = .ok i) :
    ∃ row, lookupOp (opOf word) = some row ∧ row.mnemonic = i.mnemonic ∧
      encode i = formatWords row.format word adr := by
  rcases decode_cases word adr with ⟨j, row, hj, hrow⟩ | ⟨herr, -⟩
  · obtain rfl : j = i := Except.ok.inj (hj.symm.trans h)
    exact ⟨row, hrow⟩
  · exact absurd (herr.symm.trans h) (by simp)

/-- R78: a word whose high byte is in a row decodes. -/
theorem decode_of_lookupOp {word : Word} {row : OpRow} (h : lookupOp (opOf word) = some row) (adr : Word) :
    ∃ i, decode word adr = .ok i ∧ encode i = formatWords row.format word adr := by
  rcases decode_cases word adr with ⟨i, row', hi, hrow', -, hwords⟩ | ⟨-, hnone⟩
  · obtain rfl : row = row' := Option.some.inj (h.symm.trans hrow')
    exact ⟨i, hi, hwords⟩
  · simp [h] at hnone

/-- R80: decoding refuses exactly the words whose high byte is in no row. -/
theorem decode_eq_error_iff (word adr : Word) :
    decode word adr = .error (.illegalOp (opOf word)) ↔ ∀ row ∈ opcodeMap, row.op ≠ opOf word := by
  rw [← lookupOp_eq_none_iff]
  rcases decode_cases word adr with ⟨i, row, hi, hrow, -⟩ | ⟨herr, hnone⟩
  · simp [hi, hrow]
  · simp [herr, hnone]

/-- R77: the length of an instruction is that of its row's format. -/
theorem size_of_encode_eq {i : Instr} {f : Format} {word adr : Word}
    (h : encode i = formatWords f word adr) : i.size = f.words := by
  rw [Instr.size, h]
  cases f <;> rfl

/-- R77: the rows of one word. -/
theorem words_of_mem_opcodeMap : ∀ row ∈ opcodeMap,
    row.format.words = if row.op ∈ [0x00#8, 0x71#8, 0x81#8, 0x14#8, 0x24#8, 0x25#8, 0x26#8, 0x27#8, 0x34#8,
      0x35#8, 0x36#8, 0x44#8, 0x45#8] then 1 else 2 := by decide

end Sys2Proof

namespace Sys2Proof.Machine

open Sys2Proof.Spec

/-! ## Hexadecimal digits -/

theorem hexValue_hexDigit : ∀ d : BitVec 4, hexValue (hexDigit d) = some d.toNat := by decide

/-- R81, R87: the digits of a word read back as the word. -/
theorem parseHex_hex4 (w : Word) : parseHex ('#' :: hex4 w) = some (w.toNat : Int) := by
  simp only [hex4, parseHex, hexValue_hexDigit, BitVec.extractLsb'_toNat, Nat.shiftRight_eq_div_pow]
  congr 2
  have := w.isLt
  omega

/-! ## Steps -/

/-- R82: a step on words that decode. -/
theorem step_of_decode {s : State} {i : Instr} (hs : s.status = .running)
    (h : decode (s.readMem s.pr) (s.readMem (s.pr + 1)) = .ok i) : step s = exec i s := by
  have hfetch : decode s.fetch.1 s.fetch.2 = .ok i := h
  simp only [step, hs, hfetch]

/-- R80, R201: a step on a word that is refused. -/
theorem step_of_unlisted {s : State} (hs : s.status = .running)
    (h : ∀ row ∈ opcodeMap, row.op ≠ opOf (s.readMem s.pr)) : step s = .next (illegalAt s) := by
  simp only [step, hs, State.fetch, (decode_eq_error_iff _ _).2 h]
  rfl

/-! ## The two forms of an operation -/

section FormsAgree
variable {memory : Field → Field → Word → Instr} {register : Field → Field → Instr}

theorem withRegister_field (r : Reg) (s : State) (use : Reg → Result) :
    withRegister (field r) s use = use r := by
  have hr : (field r).toNat = r.val := by simp [field]; omega
  simp [withRegister, hr]

/-- R76, R105: the forms over one `Alu` differ in the operand they read and in the advance of PR. -/
theorem formsAgree_alu {f : Alu}
    (hop : ∀ g x h y adr,
      opOf ((encode (register g x)).headD 0) = opOf ((encode (memory h y adr)).headD 0) + 4)
    (hmemory : ∀ s gr xr adr, exec (memory gr xr adr) s = aluMemory f gr xr adr s)
    (hregister : ∀ s r1 r2, exec (register r1 r2) s = aluRegister f r1 r2 s) :
    FormsAgree memory register := by
  refine ⟨hop, fun r q xr adr s hread => ?_⟩
  rw [hmemory, hregister, aluMemory, aluRegister]
  simp only [withRegister_field, hread]
  exact ⟨(s.writeGr r (f s.gr[r] s.gr[q]).1).setFr (f s.gr[r] s.gr[q]).2, rfl, rfl, rfl⟩

/-- R76, R109: the forms of a compare. -/
theorem formsAgree_compare {f : Word → Word → BitVec 3}
    (hop : ∀ g x h y adr,
      opOf ((encode (register g x)).headD 0) = opOf ((encode (memory h y adr)).headD 0) + 4)
    (hmemory : ∀ s gr xr adr, exec (memory gr xr adr) s = compareMemory f gr xr adr s)
    (hregister : ∀ s r1 r2, exec (register r1 r2) s = compareRegister f r1 r2 s) :
    FormsAgree memory register := by
  refine ⟨hop, fun r q xr adr s hread => ?_⟩
  rw [hmemory, hregister, compareMemory, compareRegister]
  simp only [withRegister_field, hread]
  exact ⟨s.setFr (f s.gr[r] s.gr[q]), rfl, rfl, rfl⟩

end FormsAgree

end Sys2Proof.Machine

namespace Sys2Proof.Proofs

open Sys2Proof.Machine Sys2Proof.Spec

/-- Settles O1: `decode_encode`, by the fields of a packed word. -/
theorem decodeReadsBackEncode : Obligations.DecodeReadsBackEncode :=
  decode_encode

/-- Settles O2: the row is the one `decode_ok` gives, and its format's words are the used bits. -/
theorem decodeFollowsOpcodeMap : Obligations.DecodeFollowsOpcodeMap := by
  intro word adr i h
  obtain ⟨row, hrow, hmnemonic, hwords⟩ := decode_ok h
  obtain ⟨hmem, hop⟩ := mem_and_op_of_lookupOp hrow
  have hsize := size_of_encode_eq hwords
  rw [formatWords_eq] at hwords
  refine ⟨row, hmem, hop, hmnemonic, hsize.symm, by simp [hwords], fun htwo => ?_⟩
  simp [hwords, hsize.symm.trans htwo]

/-- Settles O3: the two outcomes of `decode_cases` exclude each other. -/
theorem unlistedOpcodesAreRefused : Obligations.UnlistedOpcodesAreRefused :=
  ⟨decode_eq_error_iff, by decide, by decide⟩

/-- Settles O4: both words decode by the one row, so to instructions of the same words, and encoding is
injective. -/
theorem ignoredFieldsDoNotMatter : Obligations.IgnoredFieldsDoNotMatter := by
  intro word word' adr row hrow hused
  have hop : opOf word' = opOf word := by
    rw [← opOf_and_usedBits row.format word', ← hused, opOf_and_usedBits]
  obtain ⟨i, hi, hwords⟩ := decode_of_lookupOp hrow adr
  obtain ⟨i', hi', hwords'⟩ := decode_of_lookupOp (hop ▸ hrow) adr
  have hsame : i = i' := encode_injective (by rw [hwords, hwords', formatWords_eq, formatWords_eq, hused])
  rw [hi, hi', hsame]

/-- Settles O5: the ten pairs are pairs of forms over one operation, eight of results and two of compares. -/
theorem registerFormIsMemoryFormPlusFour : Obligations.RegisterFormIsMemoryFormPlusFour :=
  ⟨formsAgree_alu (by simp [encode]) exec_ldMem exec_ldReg,
   formsAgree_alu (by simp [encode]) exec_addaMem exec_addaReg,
   formsAgree_alu (by simp [encode]) exec_subaMem exec_subaReg,
   formsAgree_alu (by simp [encode]) exec_addlMem exec_addlReg,
   formsAgree_alu (by simp [encode]) exec_sublMem exec_sublReg,
   formsAgree_alu (by simp [encode]) exec_andMem exec_andReg,
   formsAgree_alu (by simp [encode]) exec_orMem exec_orReg,
   formsAgree_alu (by simp [encode]) exec_xorMem exec_xorReg,
   formsAgree_compare (by simp [encode]) exec_cpaMem exec_cpaReg,
   formsAgree_compare (by simp [encode]) exec_cplMem exec_cplReg⟩

/-- Settles O6, by the length of the row's format. -/
theorem lengthFollowsFromOpcode : Obligations.LengthFollowsFromOpcode := by
  intro word adr i h
  obtain ⟨row, hrow, -, hwords⟩ := decode_ok h
  obtain ⟨hmem, hop⟩ := mem_and_op_of_lookupOp hrow
  rw [size_of_encode_eq hwords, words_of_mem_opcodeMap row hmem, hop]

/-- Settles O7: the view looks up the same row as the decoder. -/
theorem disassemblerViewOfAWord : Obligations.DisassemblerViewOfAWord := by
  refine ⟨fun word adr i h => ?_, fun word hnone => ⟨⟨hex4 word, rfl, parseHex_hex4 word, ?_⟩, ?_⟩⟩
  · obtain ⟨row, hrow, hmnemonic, hwords⟩ := decode_ok h
    obtain ⟨hmem, hop⟩ := mem_and_op_of_lookupOp hrow
    refine ⟨row.format, hop ▸ hmnemonic ▸ hmem, ?_⟩
    simp [viewWord, hrow, hmnemonic, size_of_encode_eq hwords]
  · simp [viewWord, (lookupOp_eq_none_iff _).2 hnone]
  · rintro s hs rfl
    exact step_of_unlisted hs hnone

/-- Settles O8: each word evaluates. -/
theorem writtenOutWordsDecode : Obligations.WrittenOutWordsDecode := by
  unfold Obligations.WrittenOutWordsDecode
  decide

/-- Settles O9. -/
theorem stepRunsTheDecodedInstruction : Obligations.StepRunsTheDecodedInstruction :=
  fun _ _ => step_of_decode

end Sys2Proof.Proofs
end

section
/-! SUPPORT. The assembler: what it answers for a mnemonic and its operands, what a statement emits, what a
source line consists of, and where the words of an image stand. -/

namespace Sys2Proof.Machine

theorem except_map_ok {α β : Type} {x : Except AsmError α} {f : α → β} {b : β} (h : x.map f = .ok b) :
    ∃ a, x = .ok a ∧ f a = b := by
  cases x with
  | ok a => exact ⟨a, rfl, Except.ok.inj h⟩
  | error e => cases h

/-! ## Register and index operands -/

theorem parseRegister_eq_some {t : List Char} {f : Field} (h : parseRegister t = some f) :
    ∃ d : Char, t = ['G', 'R', d] ∧ 48 ≤ d.toNat ∧ d.toNat ≤ 55 ∧ f = BitVec.ofNat 4 (d.toNat - 48) := by
  unfold parseRegister at h
  split at h
  · split at h
    · rename_i d hrange
      obtain ⟨hlow, hhigh⟩ := hrange
      exact ⟨d, rfl, hlow, hhigh, (Option.some.inj h).symm⟩
    · cases h
  · cases h

theorem registerOperand_eq_ok_iff (t : List Char) (f : Field) :
    registerOperand t = .ok f ↔ parseRegister t = some f := by
  unfold registerOperand
  split <;> simp_all

/-- R91: an accepted index operand names one of GR1 to GR7. -/
theorem indexOperand_range {t : List Char} {f : Field} (h : indexOperand t = .ok f) :
    1 ≤ f.toNat ∧ f.toNat ≤ 7 := by
  unfold indexOperand at h
  split at h
  · cases h
  · rename_i hnot
    obtain ⟨d, rfl, hlow, hhigh, rfl⟩ := parseRegister_eq_some ((registerOperand_eq_ok_iff t f).1 h)
    have hd : d.toNat ≠ 48 := fun h48 => hnot (.inl (by rw [show d = '0' from Char.toNat_inj.1 h48]))
    rw [BitVec.toNat_ofNat]
    omega

/-- R86, R91: the field of the operands behind an address operand: none, or one index register. -/
def indexField : List (List Char) → Except AsmError Field
  | [] => .ok 0#4
  | [x] => indexOperand x
  | _ => .error .invalidArity

/-! ## The operand forms -/

section Forms
variable {symbols pool : List Char → Option Word} {i : Instr}

theorem assembleMemory_eq_ok_iff (make : Field → Field → Word → Instr) (operands : List (List Char)) :
    assembleMemory make symbols pool operands = .ok i ↔
      ∃ r a rest g f adr, operands = r :: a :: rest ∧ registerOperand r = .ok g ∧ indexField rest = .ok f ∧
        resolveAdr symbols pool a = .ok adr ∧ i = make g f adr := by
  constructor
  · intro h
    unfold assembleMemory at h
    split at h
    · rename_i r a
      obtain ⟨g, hg, h⟩ := except_bind_ok h
      obtain ⟨adr, hadr, h⟩ := except_bind_ok h
      cases h
      exact ⟨r, a, [], g, _, adr, rfl, hg, rfl, hadr, rfl⟩
    · rename_i r a x
      obtain ⟨g, hg, h⟩ := except_bind_ok h
      obtain ⟨f, hf, h⟩ := except_bind_ok h
      obtain ⟨adr, hadr, h⟩ := except_bind_ok h
      cases h
      exact ⟨r, a, [x], g, f, adr, rfl, hg, hf, hadr, rfl⟩
    · cases h
  · rintro ⟨r, a, rest, g, f, adr, rfl, hg, hf, hadr, rfl⟩
    match rest with
    | [] => cases hf; simp only [assembleMemory, hg, hadr]; rfl
    | [x] => simp only [indexField] at hf; simp only [assembleMemory, hg, hf, hadr]; rfl
    | _ :: _ :: _ => cases hf

theorem assembleAddress_eq_ok_iff (make : Field → Word → Instr) (operands : List (List Char)) :
    assembleAddress make symbols pool operands = .ok i ↔
      ∃ a rest f adr, operands = a :: rest ∧ indexField rest = .ok f ∧
        resolveAdr symbols pool a = .ok adr ∧ i = make f adr := by
  constructor
  · intro h
    unfold assembleAddress at h
    split at h
    · rename_i a
      obtain ⟨adr, hadr, h⟩ := except_bind_ok h
      cases h
      exact ⟨a, [], _, adr, rfl, rfl, hadr, rfl⟩
    · rename_i a x
      obtain ⟨f, hf, h⟩ := except_bind_ok h
      obtain ⟨adr, hadr, h⟩ := except_bind_ok h
      cases h
      exact ⟨a, [x], f, adr, rfl, hf, hadr, rfl⟩
    · cases h
  · rintro ⟨a, rest, f, adr, rfl, hf, hadr, rfl⟩
    match rest with
    | [] => cases hf; simp only [assembleAddress, hadr]; rfl
    | [x] => simp only [indexField] at hf; simp only [assembleAddress, hf, hadr]; rfl
    | _ :: _ :: _ => cases hf

end Forms

section Assemble
variable (symbols pool : List Char → Option Word) {m : Mnemonic}

/-- R88: the register that the second operand names, if it does. -/
def secondRegister (operands : List (List Char)) : Option Field :=
  (operands.map parseRegister)[1]?.join

theorem secondRegister_of_map {operands : List (List Char)} {first : Option Field} {q : Field}
    {rest : List (Option Field)} (h : operands.map parseRegister = first :: some q :: rest) :
    secondRegister operands = some q := by
  rw [secondRegister, h]
  rfl

theorem addressForm_of_memoryForm {make : Field → Field → Word → Instr} (h : memoryForm m = some make) :
    addressForm m = none := by
  cases m <;> cases h <;> rfl

theorem memoryForm_of_registerForm {make : Field → Field → Instr} (h : registerForm m = some make) :
    ∃ makeMemory, memoryForm m = some makeMemory := by
  cases m <;> cases h <;> exact ⟨_, rfl⟩

theorem assemble_of_addressForm {make : Field → Word → Instr} (h : addressForm m = some make)
    (operands : List (List Char)) :
    assemble symbols pool m operands = assembleAddress make symbols pool operands := by
  cases m <;> cases h <;> rfl

/-- R88: without a register name as second operand, or without a register form, the memory form stands. -/
theorem assemble_of_memoryForm {make : Field → Field → Word → Instr} (h : memoryForm m = some make)
    {operands : List (List Char)} (hnot : registerForm m = none ∨ secondRegister operands = none) :
    assemble symbols pool m operands = assembleMemory make symbols pool operands := by
  unfold assemble
  split
  · cases h
  · cases h
  · cases h
  · rw [addressForm_of_memoryForm h, h]
    dsimp only
    split
    · simp_all [secondRegister_of_map ‹_›]
    · simp_all [secondRegister_of_map ‹_›]
    · rfl

/-- R88: a register name as second operand selects the register form. -/
theorem assemble_of_registerForm {make : Field → Field → Instr} (h : registerForm m = some make)
    (r : List Char) {o : List Char} {q : Field} (ho : parseRegister o = some q) :
    assemble symbols pool m [r, o] = (registerOperand r).map (make · q) := by
  obtain ⟨makeMemory, hmemory⟩ := memoryForm_of_registerForm h
  unfold assemble
  split
  · cases h
  · cases h
  · cases h
  · simp only [addressForm_of_memoryForm hmemory, hmemory, h, List.map, ho]
    rfl

/-- R88: the register form takes no third operand. -/
theorem assemble_of_registerForm_arity {make : Field → Field → Instr} (h : registerForm m = some make)
    (r x : List Char) (rest : List (List Char)) {o : List Char} {q : Field} (ho : parseRegister o = some q) :
    assemble symbols pool m (r :: o :: x :: rest) = .error .invalidArity := by
  obtain ⟨makeMemory, hmemory⟩ := memoryForm_of_registerForm h
  unfold assemble
  split
  · cases h
  · cases h
  · cases h
  · simp only [addressForm_of_memoryForm hmemory, hmemory, h, List.map, ho]

/-- The mnemonics without an address operand: NOP, RET and POP. -/
theorem assemble_of_no_form (haddress : addressForm m = none) (hmemory : memoryForm m = none)
    (operands : List (List Char)) :
    ∃ x, (∀ symbols pool, assemble symbols pool m operands = x) ∧ ∀ i, x = .ok i → operands.length ≤ 2 := by
  cases m with
  | NOP | RET =>
    cases operands with
    | nil => exact ⟨_, fun _ _ => rfl, by simp⟩
    | cons r rest => exact ⟨_, fun _ _ => rfl, by simp⟩
  | POP =>
    match operands with
    | [] => exact ⟨_, fun _ _ => rfl, by simp⟩
    | [r] => exact ⟨_, fun _ _ => rfl, by simp⟩
    | _ :: _ :: _ => exact ⟨_, fun _ _ => rfl, by simp⟩
  | _ => cases haddress <;> cases hmemory

/-- Everything `assemble` can answer: the names reach it only in a form with an address operand, and without
one there are at most two operands. -/
theorem assemble_cases (m : Mnemonic) (operands : List (List Char)) :
    (∃ make, addressForm m = some make ∧
      ∀ symbols pool, assemble symbols pool m operands = assembleAddress make symbols pool operands) ∨
    (∃ make, memoryForm m = some make ∧
      ∀ symbols pool, assemble symbols pool m operands = assembleMemory make symbols pool operands) ∨
    ∃ x, (∀ symbols pool, assemble symbols pool m operands = x) ∧ ∀ i, x = .ok i → operands.length ≤ 2 := by
  cases haddress : addressForm m with
  | some make => exact .inl ⟨make, rfl, fun _ _ => assemble_of_addressForm _ _ haddress operands⟩
  | none =>
  refine .inr ?_
  cases hmemory : memoryForm m with
  | none => exact .inr (assemble_of_no_form haddress hmemory operands)
  | some makeMemory =>
    by_cases hnot : registerForm m = none ∨ secondRegister operands = none
    · exact .inl ⟨makeMemory, rfl, fun _ _ => assemble_of_memoryForm _ _ hmemory hnot⟩
    · obtain ⟨⟨make, hmake⟩, ⟨q, hq⟩⟩ := by simpa [Option.ne_none_iff_exists'] using hnot
      match operands with
      | [r, o] =>
        have ho : parseRegister o = some q := by simpa [secondRegister] using hq
        exact .inr ⟨_, fun _ _ => assemble_of_registerForm _ _ hmake r ho, by simp⟩
      | r :: o :: x :: rest =>
        have ho : parseRegister o = some q := by simpa [secondRegister] using hq
        exact .inr ⟨_, fun _ _ => assemble_of_registerForm_arity _ _ hmake r x rest ho, by simp⟩

end Assemble

/-- R86, R91: three operands assemble to a memory form alone, with the third as its index. -/
theorem assemble_three_ok {symbols pool : List Char → Option Word} {m : Mnemonic} {r a x : List Char}
    {i : Instr} (h : assemble symbols pool m [r, a, x] = .ok i) :
    ∃ f, indexOperand x = .ok f ∧ ∃ make g adr, memoryForm m = some make ∧ i = make g f adr := by
  rcases assemble_cases m [r, a, x] with ⟨make, -, heq⟩ | ⟨make, hmake, heq⟩ | ⟨y, heq, hlength⟩
  · rw [heq, assembleAddress_eq_ok_iff] at h
    obtain ⟨_, _, f, adr, hops, hf, -, -⟩ := h
    cases hops
    cases hf
  · rw [heq, assembleMemory_eq_ok_iff] at h
    obtain ⟨_, _, _, g, f, adr, hops, -, hf, -, rfl⟩ := h
    cases hops
    exact ⟨f, hf, make, g, adr, hmake, rfl⟩
  · rw [heq] at h
    exact absurd (hlength i h) (by simp)

/-! ## Sizes

R89: no value of a name changes how many words a statement emits. -/

theorem size_of_memoryForm {m : Mnemonic} {make : Field → Field → Word → Instr} (h : memoryForm m = some make)
    (g f : Field) (adr : Word) : (make g f adr).size = 2 := by
  cases m <;> cases h <;> rfl

theorem size_of_addressForm {m : Mnemonic} {make : Field → Word → Instr} (h : addressForm m = some make)
    (f : Field) (adr : Word) : (make f adr).size = 2 := by
  cases m <;> cases h <;> rfl

section EveryName
variable {symbols routines pool : List Char → Option Word}

theorem resolveAdr_everyName {t : List Char} {w : Word} (h : resolveAdr symbols pool t = .ok w) :
    ∃ w', resolveAdr everyName everyName t = .ok w' := by
  unfold resolveAdr at h ⊢
  split at h
  · exact ⟨_, rfl⟩
  · exact ⟨_, rfl⟩
  · exact ⟨_, rfl⟩
  · cases h

theorem assemble_everyName {m : Mnemonic} {operands : List (List Char)} {i : Instr}
    (h : assemble symbols pool m operands = .ok i) :
    ∃ i', assemble everyName everyName m operands = .ok i' ∧ i'.size = i.size := by
  rcases assemble_cases m operands with ⟨make, hmake, heq⟩ | ⟨make, hmake, heq⟩ | ⟨x, heq, -⟩
  · rw [heq, assembleAddress_eq_ok_iff] at h
    obtain ⟨a, rest, f, adr, hops, hf, hadr, rfl⟩ := h
    obtain ⟨adr', hadr'⟩ := resolveAdr_everyName hadr
    refine ⟨make f adr', ?_, by simp only [size_of_addressForm hmake]⟩
    rw [heq, assembleAddress_eq_ok_iff]
    exact ⟨a, rest, f, adr', hops, hf, hadr', rfl⟩
  · rw [heq, assembleMemory_eq_ok_iff] at h
    obtain ⟨r, a, rest, g, f, adr, hops, hg, hf, hadr, rfl⟩ := h
    obtain ⟨adr', hadr'⟩ := resolveAdr_everyName hadr
    refine ⟨make g f adr', ?_, by simp only [size_of_memoryForm hmake]⟩
    rw [heq, assembleMemory_eq_ok_iff]
    exact ⟨r, a, rest, g, f, adr', hops, hg, hf, hadr', rfl⟩
  · rw [heq] at h
    exact ⟨i, (heq _ _).trans h, rfl⟩

theorem dcWords_everyName {value : List Char} {ws : List Word} (h : dcWords symbols value = .ok ws) :
    ∃ ws', dcWords everyName value = .ok ws' ∧ ws'.length = ws.length := by
  unfold dcWords at h ⊢
  split at h
  · exact ⟨ws, h, rfl⟩
  · split at h
    · exact ⟨ws, h, rfl⟩
    · split at h
      · rename_i hlabel
        rw [if_pos hlabel]
        split at h <;> cases h
        exact ⟨_, rfl, rfl⟩
      · cases h

theorem concatWords_length_congr {α : Type} {f g : α → Except AsmError (List Word)}
    (hfg : ∀ x ws, f x = .ok ws → ∃ ws', g x = .ok ws' ∧ ws'.length = ws.length) {xs : List α}
    {ws : List Word} (h : concatWords f xs = .ok ws) :
    ∃ ws', concatWords g xs = .ok ws' ∧ ws'.length = ws.length := by
  induction xs generalizing ws with
  | nil => cases h; exact ⟨[], rfl, rfl⟩
  | cons x xs ih =>
    obtain ⟨first, rest, hfirst, hrest, rfl⟩ := (concatWords_cons _ _ _ _).1 h
    obtain ⟨first', hfirst', hlen⟩ := hfg x first hfirst
    obtain ⟨rest', hrest', hlen'⟩ := ih hrest
    exact ⟨first' ++ rest', (concatWords_cons _ _ _ _).2 ⟨_, _, hfirst', hrest', rfl⟩, by simp [hlen, hlen']⟩

theorem emit_service (number : Word) {buf len : List Char} {b l : Word}
    (hb : resolveAdr symbols pool buf = .ok b) (hl : resolveAdr symbols pool len = .ok l) :
    (Statement.service number buf len).emit symbols routines pool =
      .ok (encodeAll (serviceMacro number b l)) := by
  simp only [Statement.emit, hb, hl]
  rfl

/-- R89: with every name at zero a statement emits as many words as with any other values. -/
theorem emit_everyName {st : Statement} {ws : List Word} (h : st.emit symbols routines pool = .ok ws) :
    ∃ ws', st.emit everyName everyName everyName = .ok ws' ∧ ws'.length = ws.length := by
  cases st with
  | start | finish | space | pushAll | popAll => exact ⟨ws, h, rfl⟩
  | data values => exact concatWords_length_congr (fun _ _ => dcWords_everyName) h
  | service number buf len =>
    obtain ⟨b, hb, h⟩ := except_bind_ok h
    obtain ⟨l, hl, h⟩ := except_bind_ok h
    cases h
    obtain ⟨b', hb'⟩ := resolveAdr_everyName hb
    obtain ⟨l', hl'⟩ := resolveAdr_everyName hl
    exact ⟨_, emit_service number hb' hl', rfl⟩
  | instruction m operands =>
    obtain ⟨i, hi, rfl⟩ := except_map_ok h
    obtain ⟨i', hi', hsize⟩ := assemble_everyName hi
    refine ⟨encode i', ?_, hsize⟩
    have hnames : (if m = .CALL then callSymbols everyName everyName else everyName) = everyName := ite_self _
    simp only [Statement.emit, hnames, hi', Except.map]

theorem size_of_emit {st : Statement} {ws : List Word} (h : st.emit symbols routines pool = .ok ws) :
    st.size = .ok ws.length := by
  obtain ⟨ws', hws', hlen⟩ := emit_everyName h
  rw [Statement.size, hws', ← hlen]
  rfl

end EveryName

/-! ## Data words -/

/-- R85, R87: a label begins with a letter, so it is neither a quoted string nor a number. -/
theorem not_quoted_and_not_number_of_isLabel {t : List Char} (h : isLabel t = true) :
    quotedWords t = none ∧ parseNumber t = none := by
  match t with
  | c :: cs =>
    have hc : isUpper c = true := by simp_all [isLabel]
    have hne (d : Char) (hd : isUpper d = false) : c ≠ d := by rintro rfl; simp [hc] at hd
    have hdigit : isDigit c = false := by
      simp only [isUpper, isDigit, decide_eq_true_eq, decide_eq_false_iff_not] at hc ⊢
      omega
    simp [quotedWords, parseNumber, parseHex, parseDecimal, digitsValue, hdigit, hne '\'' rfl, hne '#' rfl,
      hne '-' rfl]

theorem concatWords_singleton {α : Type} {words : α → Except AsmError (List Word)} {x : α} {ws : List Word}
    (h : words x = .ok ws) : concatWords words [x] = .ok ws :=
  (concatWords_cons _ _ _ _).2 ⟨ws, [], h, rfl, (List.append_nil ws).symm⟩

theorem dcWords_of_number (symbols : List Char → Option Word) {value : List Char} {x : Int}
    (hquoted : quotedWords value = none) (hnumber : parseNumber value = some x) :
    dcWords symbols value = .ok [wrap x] := by
  simp [dcWords, hquoted, hnumber]

theorem dcWords_of_label {symbols : List Char → Option Word} {value : List Char} {a : Word}
    (hlabel : isLabel value = true) (ha : symbols value = some a) : dcWords symbols value = .ok [a] := by
  obtain ⟨hquoted, hnumber⟩ := not_quoted_and_not_number_of_isLabel hlabel
  simp [dcWords, hquoted, hnumber, hlabel, ha]

/-! ## Source lines -/

/-- R85: a line is its text and then its comment. -/
theorem exists_comment (quoted : Bool) (line : List Char) :
    ∃ comment, line = stripComment quoted line ++ comment := by
  induction line generalizing quoted with
  | nil => exact ⟨[], rfl⟩
  | cons c cs ih =>
    unfold stripComment
    split
    · obtain ⟨comment, h⟩ := ih (!quoted)
      exact ⟨comment, congrArg (c :: ·) h⟩
    · split
      · exact ⟨c :: cs, rfl⟩
      · obtain ⟨comment, h⟩ := ih quoted
        exact ⟨comment, congrArg (c :: ·) h⟩

/-- R85: the text of a line up to its first blank, where a label stands. -/
def labelText (text : List Char) : List Char := text.takeWhile fun c => !isBlank c

/-- The text from the first blank on. -/
def afterLabel (text : List Char) : List Char := text.dropWhile fun c => !isBlank c

/-- R85: the text between the blanks behind the label and the next blank, where the mnemonic stands. -/
def mnemonicText (text : List Char) : List Char :=
  ((afterLabel text).dropWhile isBlank).takeWhile fun c => !isBlank c

theorem labelText_append_afterLabel (text : List Char) : labelText text ++ afterLabel text = text :=
  List.takeWhile_append_dropWhile

/-- `parseLine`, with names for the parts of the text. -/
theorem parseLine_eq (line : List Char) {text : List Char} (htext : text = stripComment false line) :
    parseLine line =
      if (labelText text).isEmpty && (mnemonicText text).isEmpty then .ok none
      else if !(labelText text).isEmpty && !isLabel (labelText text) then .error .invalidLabel
      else if (mnemonicText text).isEmpty || !(mnemonicText text).all isUpper then .error .invalidMnemonic
      else .ok (some ⟨if (labelText text).isEmpty then none else some (labelText text), mnemonicText text,
        splitOperands (((afterLabel text).dropWhile isBlank).dropWhile fun c => !isBlank c)⟩) := by
  subst htext
  rfl

/-- R85: what a line that is read consists of; every other line ends in an error or is blank. -/
theorem parseLine_ok {line : List Char} {l : SourceLine} (h : parseLine line = .ok (some l)) :
    ∃ text comment, line = text ++ comment ∧ l.mnemonic = mnemonicText text ∧
      mnemonicText text ≠ [] ∧ (∀ c ∈ mnemonicText text, isUpper c = true) ∧
      (labelText text = [] ∧ l.label = none ∨
        isLabel (labelText text) = true ∧ l.label = some (labelText text)) := by
  obtain ⟨text, htext⟩ : ∃ text, text = stripComment false line := ⟨_, rfl⟩
  rw [parseLine_eq line htext] at h
  split at h
  · cases h
  split at h
  · cases h
  split at h
  · cases h
  rename_i hlabel hmnemonic
  cases h
  obtain ⟨hne, hupper⟩ : mnemonicText text ≠ [] ∧ ∀ c ∈ mnemonicText text, isUpper c = true := by
    simpa using hmnemonic
  obtain ⟨comment, hline⟩ := exists_comment false line
  refine ⟨text, comment, htext ▸ hline, rfl, hne, hupper, ?_⟩
  by_cases hempty : labelText text = []
  · exact .inl ⟨hempty, by simp [hempty]⟩
  · exact .inr ⟨by simpa [hempty] using hlabel, by simp [hempty]⟩

theorem exists_blank_of_afterLabel {text : List Char} (h : afterLabel text ≠ []) :
    ∃ c rest, isBlank c = true ∧ afterLabel text = c :: rest := by
  obtain ⟨c, rest, hafter⟩ := List.exists_cons_of_ne_nil h
  have hc := List.head_dropWhile_not (fun c => !isBlank c) h
  simp only [afterLabel] at hafter
  exact ⟨c, rest, by simpa [hafter] using hc, hafter⟩

theorem afterLabel_ne_nil_of_mnemonicText {text : List Char} (h : mnemonicText text ≠ []) :
    afterLabel text ≠ [] := by
  intro hnil
  simp [mnemonicText, hnil] at h

/-- R85: a mnemonic stands right behind a blank. -/
theorem exists_blank_before_mnemonic {text : List Char} (h : mnemonicText text ≠ []) :
    ∃ before after c, isBlank c = true ∧ text = before ++ c :: (mnemonicText text ++ after) := by
  obtain ⟨b, rest, hb, hafter⟩ := exists_blank_of_afterLabel (afterLabel_ne_nil_of_mnemonicText h)
  obtain hnil | ⟨blanks, c, hblanks⟩ := List.eq_nil_or_concat ((afterLabel text).takeWhile isBlank)
  · simp [hafter, hb] at hnil
  · have hc : isBlank c = true := List.mem_takeWhile_imp (l := afterLabel text) (by simp [hblanks])
    obtain ⟨after, hbehind⟩ : ∃ after, (afterLabel text).dropWhile isBlank = mnemonicText text ++ after :=
      ⟨_, List.takeWhile_append_dropWhile.symm⟩
    refine ⟨labelText text ++ blanks, after, c, hc, ?_⟩
    calc text = labelText text ++ afterLabel text := (labelText_append_afterLabel text).symm
      _ = labelText text ++ ((blanks ++ [c]) ++ (mnemonicText text ++ after)) := by
          rw [← List.concat_eq_append, ← hblanks, ← hbehind, List.takeWhile_append_dropWhile]
      _ = (labelText text ++ blanks) ++ c :: (mnemonicText text ++ after) := by simp

/-! ## Layout -/

section Lines
variable {symbols routines pool : List Char → Option Word}

/-- R89: the counter stands behind the words that the lines emit. -/
theorem placeLines_stop {a stop : Nat} {ls : List Line} {names : NameTable} {ws : List Word}
    (h : placeLines a ls = .ok (names, stop))
    (hws : concatWords (fun l : Line => l.statement.emit symbols routines pool) ls = .ok ws) :
    a + ws.length = stop := by
  induction ls generalizing a names ws with
  | nil => cases h; cases hws; rfl
  | cons l ls ih =>
    obtain ⟨n, names', stop', hsize, hplace, heq⟩ := placeLines_cons a l ls _ h
    cases heq
    obtain ⟨first, rest, hfirst, hrest, rfl⟩ := (concatWords_cons _ _ _ _).1 hws
    cases hsize.symm.trans (size_of_emit hfirst)
    rw [List.length_append, ← Nat.add_assoc]
    exact ih hplace hrest

/-- R87: the label of a line stands in the table with the address behind the words before it. -/
theorem mem_names_of_placeLines {a stop : Nat} {before after : List Line} {l : Line} {name : List Char}
    {names : NameTable} {ws : List Word} (h : placeLines a (before ++ l :: after) = .ok (names, stop))
    (hname : l.label = some name)
    (hws : concatWords (fun l : Line => l.statement.emit symbols routines pool) before = .ok ws) :
    (name, BitVec.ofNat 16 (a + ws.length)) ∈ names := by
  induction before generalizing a names ws with
  | nil =>
    obtain ⟨n, names', stop', -, -, heq⟩ := placeLines_cons a l after _ h
    cases heq
    cases hws
    simp [nameAt, hname]
  | cons k before ih =>
    obtain ⟨n, names', stop', hsize, hplace, heq⟩ := placeLines_cons a k (before ++ l :: after) _ h
    cases heq
    obtain ⟨first, rest, hfirst, hrest, rfl⟩ := (concatWords_cons _ _ _ _).1 hws
    cases hsize.symm.trans (size_of_emit hfirst)
    rw [List.length_append, ← Nat.add_assoc]
    exact List.mem_append_right _ (ih hplace hrest)

end Lines

open Sys2Proof.Spec

/-- R89: the words of a placed block, in two parts. -/
theorem Placed.words_ok {p : Placed} {routines : NameTable} {ws : List Word}
    (h : p.words routines = .ok ws) :
    ∃ lines pool, lineWords p routines p.block.lines = .ok lines ∧
      concatWords literalWords (poolOrder p.block.literals) = .ok pool ∧ ws = lines ++ pool := by
  obtain ⟨lines, hlines, h⟩ := except_bind_ok h
  obtain ⟨pool, hpool, h⟩ := except_bind_ok h
  cases h
  exact ⟨lines, pool, hlines, hpool, rfl⟩

/-- R89: a block's words are those of its lines, up to the pool, and of its pool, up to its end. -/
theorem place_words {b : Block} {a : Nat} {p : Placed} {routines : NameTable} {ws : List Word}
    (hplace : b.place a = .ok p) (hws : p.words routines = .ok ws) :
    ∃ lines pool, ws = lines ++ pool ∧ lineWords p routines b.lines = .ok lines ∧
      a + lines.length = p.poolFirst ∧ concatWords literalWords (poolOrder b.literals) = .ok pool ∧
      p.poolFirst + pool.length = p.stop := by
  obtain ⟨rfl, -, -, ⟨names, hlines, -⟩, hpool⟩ := place_ok b a p hplace
  obtain ⟨lines, pool, hlineWords, hpoolWords, rfl⟩ := Placed.words_ok hws
  exact ⟨lines, pool, rfl, hlineWords, placeLines_stop hlines hlineWords, hpoolWords,
    placePool_stop _ _ _ _ _ hpool hpoolWords⟩

theorem stop_of_place {b : Block} {a : Nat} {p : Placed} {routines : NameTable} {ws : List Word}
    (hplace : b.place a = .ok p) (hws : p.words routines = .ok ws) : a + ws.length = p.stop := by
  obtain ⟨lines, pool, rfl, -, hpoolFirst, -, hstop⟩ := place_words hplace hws
  rw [List.length_append, ← Nat.add_assoc, hpoolFirst, hstop]

/-- R87: a label resolves to the address of its line's first word. -/
theorem find_label_of_place {b : Block} {a : Nat} {p : Placed} {routines : NameTable}
    {before after : List Line} {l : Line} {name : List Char} {lines : List Word} (hplace : b.place a = .ok p)
    (hb : b.lines = before ++ l :: after) (hname : l.label = some name)
    (hlines : lineWords p routines before = .ok lines) :
    p.symbols.find name = some (BitVec.ofNat 16 (a + lines.length)) := by
  obtain ⟨-, -, hnodup, ⟨names, hnames, hsymbols⟩, -⟩ := place_ok b a p hplace
  rw [hb] at hnames
  refine find_of_nodup _ _ _ hnodup ?_
  rw [hsymbols]
  exact List.mem_append_right _ (mem_names_of_placeLines hnames hname hlines)

theorem placeBlocks_eq_cons {a : Nat} {bs : List Block} {p : Placed} {ps : List Placed}
    (h : placeBlocks a bs = .ok (p :: ps)) :
    ∃ (b : Block) (bs' : List Block), b.place a = .ok p ∧ placeBlocks p.stop bs' = .ok ps := by
  cases bs with
  | nil => cases h
  | cons b bs =>
    obtain ⟨p', ps', hplace, hrest, heq⟩ := placeBlocks_cons a b bs _ h
    cases heq
    exact ⟨b, bs, hplace, hrest⟩

/-- R89: a block is laid out right behind the words of the blocks before it. -/
theorem first_of_placeBlocks {a : Nat} {bs : List Block} {before after : List Placed} {p : Placed}
    {routines : NameTable} {front : List Word} (h : placeBlocks a bs = .ok (before ++ p :: after))
    (hfront : concatWords (Placed.words routines) before = .ok front) : p.first = a + front.length := by
  induction before generalizing a bs front with
  | nil =>
    obtain ⟨b, bs', hplace, -⟩ := placeBlocks_eq_cons h
    obtain ⟨-, hfirst, -⟩ := place_ok b a p hplace
    cases hfront
    exact hfirst
  | cons q before ih =>
    obtain ⟨b, bs', hplace, hrest⟩ := placeBlocks_eq_cons h
    obtain ⟨ws, rest, hws, hbefore, rfl⟩ := (concatWords_cons _ _ _ _).1 hfront
    rw [ih hrest hbefore, List.length_append, ← Nat.add_assoc, stop_of_place hplace hws]

end Sys2Proof.Machine

namespace Sys2Proof.Proofs

open Sys2Proof.Machine Sys2Proof.Spec

/-- Settles O54: the macros are lists of instructions, whose words evaluate. -/
theorem macroWords : Obligations.MacroWords :=
  ⟨fun _ _ => rfl, fun _ _ => rfl, rfl, rfl⟩

/-- Settles O55: a register name as second operand selects the register form, anything else the memory
form. -/
theorem registerFormChosenByOperand : Obligations.RegisterFormChosenByOperand := by
  intro symbols pool m make r o f hmake hr
  have hregister := (registerOperand_eq_ok_iff r f).2 hr
  refine ⟨fun q ho => ⟨?_, fun x => assemble_of_registerForm_arity _ _ hmake r x [] ho⟩, fun ho => ?_⟩
  · rw [assemble_of_registerForm symbols pool hmake r ho, hregister]
    rfl
  · obtain ⟨makeMemory, hmemory⟩ := memoryForm_of_registerForm hmake
    have hform (rest : List (List Char)) (i : Instr) (h : assemble symbols pool m (r :: o :: rest) = .ok i) :
        ∃ k adr, indexField rest = .ok k ∧ i = makeMemory f k adr := by
      rw [assemble_of_memoryForm symbols pool hmemory (.inr (by simp [secondRegister, ho])),
        assembleMemory_eq_ok_iff] at h
      obtain ⟨_, _, _, g, k, adr, hops, hg, hk, -, rfl⟩ := h
      cases hops
      cases hregister.symm.trans hg
      exact ⟨k, adr, hk, rfl⟩
    refine ⟨makeMemory, hmemory, fun i h => ?_, fun x i h => ?_⟩
    · obtain ⟨k, adr, hk, rfl⟩ := hform [] i h
      cases hk
      exact ⟨adr, rfl⟩
    · obtain ⟨k, adr, -, rfl⟩ := hform [x] i h
      exact ⟨k, adr, rfl⟩

/-- Settles O56: with three operands a memory form is the only one left, with two of an address form the
second is the index. -/
theorem gr0IsNoIndexOperand : Obligations.Gr0IsNoIndexOperand := by
  refine ⟨⟨by decide, by decide⟩, fun t f => indexOperand_range, ?_, ?_, ?_⟩
  · exact fun symbols pool m r a x i => assemble_three_ok
  · intro symbols pool m make a x i hmake h
    rw [assemble_of_addressForm _ _ hmake, assembleAddress_eq_ok_iff] at h
    obtain ⟨_, _, f, adr, hops, hf, -, rfl⟩ := h
    cases hops
    exact ⟨f, adr, hf, rfl⟩
  · exact fun s adr => effectiveAddress_plain s 0 adr (by decide)

/-- Settles O57: the parts of the text that `parseLine_ok` names, found again in the line it begins. -/
theorem sourceLineParts : Obligations.SourceLineParts := by
  intro line l h
  obtain ⟨text, comment, rfl, hmnemonic, hne, hupper, hlabel⟩ := parseLine_ok h
  rw [hmnemonic]
  refine ⟨fun name hname => ?_, fun hnone => ?_, hne, hupper, ?_⟩
  · rcases hlabel with ⟨-, hnone⟩ | ⟨hlabel, hsome⟩
    · simp [hnone] at hname
    · obtain rfl : labelText text = name := Option.some.inj (hsome.symm.trans hname)
      exact ⟨hlabel, afterLabel text ++ comment, by rw [← List.append_assoc, labelText_append_afterLabel]⟩
  · rcases hlabel with ⟨hempty, -⟩ | ⟨-, hsome⟩
    · have hafter : afterLabel text = text := by simpa [hempty] using labelText_append_afterLabel text
      obtain ⟨c, rest, hc, htext⟩ := exists_blank_of_afterLabel (afterLabel_ne_nil_of_mnemonicText hne)
      exact ⟨c, rest ++ comment, by rw [← hafter, htext, List.cons_append], hc⟩
    · simp [hnone] at hsome
  · obtain ⟨before, after, c, hc, htext⟩ := exists_blank_before_mnemonic hne
    refine ⟨before, after ++ comment, c, hc, (congrArg (· ++ comment) htext).trans ?_⟩
    simp

/-- Settles O58, clause by clause. -/
theorem directivesEmitTheirWords : Obligations.DirectivesEmitTheirWords := by
  intro symbols routines pool
  refine ⟨fun e => rfl, rfl, fun n => rfl, fun v x hquoted hnumber => ?_, fun v a hlabel ha => ?_,
    fun vs us ws xs hvs hus => ?_, fun buf len b l hb hl => ⟨?_, ?_⟩, rfl, rfl⟩
  · exact concatWords_singleton (dcWords_of_number symbols hquoted hnumber)
  · exact concatWords_singleton (dcWords_of_label hlabel ha)
  · exact (concatWords_append _ vs us _).2 ⟨ws, xs, hvs, hus, rfl⟩
  · exact emit_service Config.sysIn hb hl
  · exact emit_service Config.sysOut hb hl

/-- Settles O59, by comparing with the words every name at zero gives. -/
theorem addressCounterCountsEmittedWords : Obligations.AddressCounterCountsEmittedWords :=
  fun _ _ _ _ _ => size_of_emit

/-- Settles O60, block by block and then for the blocks of an image. -/
theorem imageIsContiguous : Obligations.ImageIsContiguous := by
  constructor
  · intro b a p routines ws hplace hws
    obtain ⟨-, hfirst, -⟩ := place_ok b a p hplace
    obtain ⟨lines, pool, heq, hlines, hpoolFirst, hpool, -⟩ := place_words hplace hws
    refine ⟨hfirst, stop_of_place hplace hws, ⟨lines, pool, heq, hlines, hpoolFirst, hpool⟩,
      fun before after l name hb hname => ?_⟩
    rw [hb] at hlines
    obtain ⟨front, rest, hfront, -, -⟩ := (concatWords_append _ before (l :: after) _).1 hlines
    exact ⟨front, hfront, find_label_of_place hplace hb hname hfront⟩
  · rintro a bs ps routines image hplace himage before after p rfl
    obtain ⟨front, rest, hfront, hrest, rfl⟩ := (concatWords_append _ before (p :: after) _).1 himage
    obtain ⟨ws, rest, hws, -, rfl⟩ := (concatWords_cons _ p after _).1 hrest
    exact ⟨front, ws, rest, rfl, hws, first_of_placeBlocks hplace hfront⟩

end Sys2Proof.Proofs
end

section
/-! SUPPORT. The load and store instructions: their encoding in bits, the state after a two-operand
instruction over one `Alu`, and the words of memory an effect leaves alone. -/

namespace Sys2Proof

section Append
variable (op : BitVec 8) (gr xr : Field)

theorem opOf_append : opOf (op ++ gr ++ xr) = op :=
  (BitVec.extractLsb'_append_eq_of_le (by decide : 4 ≤ 8)).trans BitVec.extractLsb'_append_eq_left

theorem grOf_append : grOf (op ++ gr ++ xr) = gr :=
  (BitVec.extractLsb'_append_eq_of_le (Nat.le_refl 4)).trans BitVec.extractLsb'_append_eq_right

theorem xrOf_append : xrOf (op ++ gr ++ xr) = xr :=
  BitVec.extractLsb'_append_eq_right

/-- R71, R73: the first word is its three fields side by side. -/
theorem packWord_eq_append : packWord op gr xr = op ++ gr ++ xr := by
  have h := packWord_fields (op ++ gr ++ xr)
  rwa [opOf_append, grOf_append, xrOf_append] at h

end Append

end Sys2Proof

namespace Sys2Proof.Machine

open Sys2Proof.Spec

/-! ## The results of an `Alu` -/

/-- R28: FR is its three bits side by side. -/
theorem eq_append_bits : ∀ f : BitVec 3,
    f = BitVec.ofBool (f.getLsbD 2) ++ BitVec.ofBool (f.getLsbD 1) ++ BitVec.ofBool (f.getLsbD 0) := by
  decide

/-- R28: what an instruction writes to FR is what the rule says in bits. -/
theorem frOf_decide (overflow : Prop) [Decidable overflow] (v : Word) :
    frOf (decide overflow) v = fr overflow v := by
  obtain ⟨hof, hsf, hzf⟩ := frOf_bits (decide overflow) v
  rw [eq_append_bits (frOf (decide overflow) v), hof, hsf, hzf]
  rfl

/-- R29: the flags of an instruction that never sets OF. -/
theorem frOf_false (v : Word) : frOf false v = fr False v :=
  frOf_decide False v

section Alu
variable {f : Alu} {value : Word → Word → Word} {flags : Word → Word → BitVec 3}

/-- R105: the memory form of an operation writes its result and flags. -/
theorem writesMemory_of_alu {memory : Field → Field → Word → Instr}
    (hexec : ∀ s gr xr adr, exec (memory gr xr adr) s = aluMemory f gr xr adr s)
    (hf : ∀ a b, f a b = (value a b, flags a b)) : WritesMemory memory value flags := by
  intro r xr adr s
  rw [hexec, aluMemory, withRegister_field, hf]
  rfl

/-- R105: the register form of an operation writes its result and flags. -/
theorem writesRegister_of_alu {register : Field → Field → Instr}
    (hexec : ∀ s r1 r2, exec (register r1 r2) s = aluRegister f r1 r2 s)
    (hf : ∀ a b, f a b = (value a b, flags a b)) : WritesRegister register value flags := by
  intro r q s
  rw [hexec, aluRegister, withRegister_field, withRegister_field, hf]
  rfl

end Alu

/-! ## The words of memory that an instruction stores to -/

/-- R158: a push writes the new stack slot alone. -/
theorem readMem_pushWord_other (s : State) (v a : Word) (h : a ≠ s.sp - 1#16) :
    (s.pushWord v).readMem a = s.readMem a :=
  State.readMem_writeMem_other (s.setSp (s.sp - 1#16)) _ a v h.symm

/-- R172: the input service writes the length word and the buffer alone. -/
theorem readMem_serviceIn_other (s : State) (a : Word) (hlength : a ≠ s.gr[(2 : Reg)])
    (hbuffer : min s.hostIn.1.length 256 ≤ (a - s.gr[(1 : Reg)]).toNat) :
    s.serviceIn.readMem a = s.readMem a := by
  have hkept : (s.hostIn.1.take Config.inMax).length = min s.hostIn.1.length 256 := by
    rw [List.length_take, Nat.min_comm]; rfl
  calc s.serviceIn.readMem a
      = (s.hostIn.2.writeMem (s.readGr 2) (BitVec.ofNat 16 (s.hostIn.1.take Config.inMax).length)).readMem a :=
        readMem_storeBytes_outside _ _ _ _ (hkept ▸ hbuffer)
    _ = s.hostIn.2.readMem a := State.readMem_writeMem_other _ _ _ _ hlength.symm
    _ = s.readMem a := State.readMem_of_mem _ _ (hostIn_mem s) a

/-- R171: the number of the input service selects it. -/
theorem service_sysIn (s : State) : s.service Config.sysIn = s.serviceIn :=
  if_pos rfl

/-- R171, R173: no service but the input service writes memory. -/
theorem readMem_service_of_ne_sysIn (s : State) (number a : Word) (h : number ≠ Config.sysIn) :
    (s.service number).readMem a = s.readMem a := by
  rw [State.service, if_neg h]
  split <;> rfl

/-- R53, R57, R170: an effect leaves the words alone that its instruction does not store to. -/
theorem Effect.readMem_of_not_storesTo {i : Instr} {g : State → State} (h : Effect i g) (s : State)
    (a : Word) (ha : ¬ storesTo i s a) : (g s).readMem a = s.readMem a := by
  cases h with
  | st r xr adr hi =>
    subst hi
    exact State.readMem_writeMem_other s _ a _ (Ne.symm ha)
  | push xr adr hi =>
    subst hi
    exact readMem_pushWord_other s _ a ha
  | call xr adr hi =>
    subst hi
    exact readMem_pushWord_other s _ a ha
  | svc xr adr hi =>
    subst hi
    change (s.service (effectiveAddress s xr adr)).readMem a = s.readMem a
    by_cases hin : effectiveAddress s xr adr = Config.sysIn
    · obtain ⟨hlength, hbuffer⟩ := not_or.1 fun h => ha ⟨hin, h⟩
      rw [hin, service_sysIn]
      exact readMem_serviceIn_other s a hlength (Nat.le_of_not_lt hbuffer)
    · exact readMem_service_of_ne_sysIn s _ a hin
  | jump => dsimp only; split <;> rfl
  | ret => dsimp only; split <;> rfl
  | result | compare | lad | pop | nop => rfl

end Sys2Proof.Machine

namespace Sys2Proof.Proofs

open Sys2Proof.Machine Sys2Proof.Spec

/-- Settles O17: `decode_encode` on the word in bits, the two forms over the one `Alu`, and the field check. -/
theorem loadResult : Obligations.LoadResult := by
  have hload (_ b : Word) : (b, frOf false b) = (b, fr False b) := congrArg (Prod.mk b) (frOf_false b)
  refine ⟨fun gr xr adr => ?_, fun r1 r2 adr => ?_, writesMemory_of_alu exec_ldMem hload,
    writesRegister_of_alu exec_ldReg hload, fun gr xr adr s hgr => ?_, fun r1 r2 s hfields => ?_⟩
  · rw [← packWord_eq_append]
    exact decode_encode (.ldMem gr xr adr) adr
  · rw [← packWord_eq_append]
    exact decode_encode (.ldReg r1 r2) adr
  · exact registerFieldAboveSevenIsIllegal _ s (by simpa [Instr.registerFields] using hgr)
  · exact registerFieldAboveSevenIsIllegal _ s (by simpa [Instr.registerFields] using hfields)

/-- Settles O18, by a read after the write. -/
theorem storeResult : Obligations.StoreResult := by
  intro r xr adr s hs
  rw [exec_st, withRegister_field]
  exact ⟨_, rfl, fun a => State.readMem_writeMem s (effectiveAddress s xr adr) (s.readGr r) a hs, rfl⟩

/-- Settles O37, by the memory frame of an effect; the exception leaves memory. -/
theorem onlyTheStoredWordsChange : Obligations.OnlyTheStoredWordsChange := by
  intro i s t a hexec ha
  rcases exec_next i s t hexec with ⟨-, g, hg, rfl⟩ | ⟨-, rfl⟩
  · exact hg.readMem_of_not_storesTo s a ha
  · rfl

/-- Settles O19, by the register the field names. -/
theorem loadAddressResult : Obligations.LoadAddressResult := by
  intro r xr adr s
  rw [exec_lad, withRegister_field]
  rfl

end Sys2Proof.Proofs
end

section
/-! SUPPORT. The results and flags of the arithmetic, logical and compare operations, in the terms of the
rules: the signed and unsigned ranges for OF, and the order of the operands for a compare. -/

namespace Sys2Proof.Machine

open Sys2Proof.Spec

/-! ## Wrapped results -/

/-- R106: a signed sum and the sum of words wrap to the same word. -/
theorem wrap_toInt_add (a b : Word) : wrap (a.toInt + b.toInt) = a + b :=
  BitVec.eq_of_toInt_eq ((BitVec.toInt_ofInt _).trans (BitVec.toInt_add a b).symm)

/-- R106: a signed difference and the difference of words wrap to the same word. -/
theorem wrap_toInt_sub (a b : Word) : wrap (a.toInt - b.toInt) = a - b :=
  BitVec.eq_of_toInt_eq ((BitVec.toInt_ofInt _).trans BitVec.toInt_sub.symm)

/-- R107: the wrapped unsigned sum is the sum of words. -/
theorem wrap_toNat_add (a b : Word) : wrap (a.toNat + b.toNat) = a + b := by
  apply BitVec.eq_of_toNat_eq
  rw [BitVec.toNat_ofInt, BitVec.toNat_add]
  omega

/-- R107: the wrapped unsigned difference is the difference of words. -/
theorem wrap_toNat_sub (a b : Word) : wrap (a.toNat - b.toNat) = a - b := by
  apply BitVec.eq_of_toNat_eq
  rw [BitVec.toNat_ofInt, BitVec.toNat_sub]
  omega

/-! ## The results of the operations -/

/-- R106: `ADDA`. -/
theorem aluAdda_eq (a b : Word) : aluAdda a b = (wrap (a.toInt + b.toInt),
    fr (a.toInt + b.toInt < -32768 ∨ 32767 < a.toInt + b.toInt) (a + b)) := by
  rw [← wrap_toInt_add, ← frOf_decide]
  rfl

/-- R106: `SUBA`. -/
theorem aluSuba_eq (a b : Word) : aluSuba a b = (wrap (a.toInt - b.toInt),
    fr (a.toInt - b.toInt < -32768 ∨ 32767 < a.toInt - b.toInt) (a - b)) := by
  rw [← wrap_toInt_sub, ← frOf_decide]
  rfl

/-- R107: `ADDL`; no sum of unsigned words is negative, so OF is the carry alone. -/
theorem aluAddl_eq (a b : Word) : aluAddl a b = (a + b, fr (65535 < a.toNat + b.toNat) (a + b)) := by
  have hcarry : unsignedOverflow (a.toNat + b.toNat) = decide (65535 < a.toNat + b.toNat) :=
    decide_eq_decide.2 (by omega)
  rw [aluAddl, unsignedResult, wrap_toNat_add, hcarry, frOf_decide]

/-- R107: `SUBL`; no difference of unsigned words exceeds 65535, so OF is the borrow alone. -/
theorem aluSubl_eq (a b : Word) : aluSubl a b = (a - b, fr (a.toNat < b.toNat) (a - b)) := by
  have hborrow : unsignedOverflow (a.toNat - b.toNat) = decide (a.toNat < b.toNat) :=
    decide_eq_decide.2 (by omega)
  rw [aluSubl, unsignedResult, wrap_toNat_sub, hborrow, frOf_decide]

/-- R108: a bitwise result never sets OF. -/
theorem logicResult_eq (v : Word) : logicResult v = (v, fr False v) :=
  congrArg (Prod.mk v) (frOf_false v)

/-! ## Compares -/

/-- R109: a saturated difference is in the signed range, so wrapping keeps it. -/
theorem toInt_wrap_saturate (d : Int) : (wrap (saturate d)).toInt = saturate d :=
  BitVec.toInt_ofInt_eq_self (by decide) (by simp [saturate]) (by simp [saturate])

/-- R28: the flags of a word are those of its signed value. -/
theorem flagsOf_eq_toInt (v : Word) :
    flagsOf v = if v.toInt = 0 then 0b001#3 else if v.toInt < 0 then 0b010#3 else 0b000#3 := by
  have hzero : v = 0x0000#16 ↔ v.toInt = 0 := BitVec.toInt_inj.symm
  have hsign : v.getLsbD 15 = decide (v.toInt < 0) := BitVec.msb_eq_getLsbD_last v ▸ BitVec.msb_eq_toInt
  simp only [flagsOf, hzero, hsign, decide_eq_true_eq]

/-- R109: saturation keeps the sign of a difference, so the flags are those of the difference itself. -/
theorem compareResult_eq (d : Int) :
    compareResult d = if d = 0 then 0b001 else if d < 0 then 0b010 else 0 := by
  have hzero : saturate d = 0 ↔ d = 0 := by rw [saturate]; omega
  have hneg : saturate d < 0 ↔ d < 0 := by rw [saturate]; omega
  rw [compareResult, frOf_eq, flagsOf_eq_toInt, toInt_wrap_saturate]
  simp [hzero, hneg]

/-- R109: `CPA`. -/
theorem cmpCpa_eq (a b : Word) :
    cmpCpa a b = if a = b then 0b001 else if a.toInt < b.toInt then 0b010 else 0 := by
  simp only [cmpCpa, compareResult_eq, Int.sub_eq_zero, BitVec.toInt_inj, sub_neg]

/-- R109: `CPL`. -/
theorem cmpCpl_eq (a b : Word) :
    cmpCpl a b = if a = b then 0b001 else if a.toNat < b.toNat then 0b010 else 0 := by
  simp only [cmpCpl, compareResult_eq, Int.sub_eq_zero, Int.natCast_inj, BitVec.toNat_inj, sub_neg,
    Int.ofNat_lt]

section Compare
variable {f flags : Word → Word → BitVec 3}

/-- R109: the memory form of a compare writes its flags. -/
theorem comparesMemory_of_compare {memory : Field → Field → Word → Instr}
    (hexec : ∀ s gr xr adr, exec (memory gr xr adr) s = compareMemory f gr xr adr s)
    (hf : ∀ a b, f a b = flags a b) : ComparesMemory memory flags := by
  intro r xr adr s
  rw [hexec, compareMemory, withRegister_field, hf]
  rfl

/-- R109: the register form of a compare writes its flags. -/
theorem comparesRegister_of_compare {register : Field → Field → Instr}
    (hexec : ∀ s r1 r2, exec (register r1 r2) s = compareRegister f r1 r2 s)
    (hf : ∀ a b, f a b = flags a b) : ComparesRegister register flags := by
  intro r q s
  rw [hexec, compareRegister, withRegister_field, withRegister_field, hf]
  rfl

end Compare

end Sys2Proof.Machine

namespace Sys2Proof.Proofs

open Sys2Proof.Machine Sys2Proof.Spec

/-- Settles O20: wrapping commutes with sum and difference, and OF is the signed range test. -/
theorem signedAddSubtractResult : Obligations.SignedAddSubtractResult :=
  ⟨fun a b => ⟨wrap_toInt_add a b, wrap_toInt_sub a b⟩,
   writesMemory_of_alu exec_addaMem aluAdda_eq, writesRegister_of_alu exec_addaReg aluAdda_eq,
   writesMemory_of_alu exec_subaMem aluSuba_eq, writesRegister_of_alu exec_subaReg aluSuba_eq⟩

/-- Settles O21: of the unsigned range test a sum can only fail above and a difference only below. -/
theorem unsignedAddSubtractResult : Obligations.UnsignedAddSubtractResult :=
  ⟨writesMemory_of_alu exec_addlMem aluAddl_eq, writesRegister_of_alu exec_addlReg aluAddl_eq,
   writesMemory_of_alu exec_sublMem aluSubl_eq, writesRegister_of_alu exec_sublReg aluSubl_eq⟩

/-- Settles O22: the three operations are bitwise results, and those never set OF. -/
theorem logicResult : Obligations.LogicResult :=
  ⟨writesMemory_of_alu exec_andMem fun a b => logicResult_eq (a &&& b),
   writesRegister_of_alu exec_andReg fun a b => logicResult_eq (a &&& b),
   writesMemory_of_alu exec_orMem fun a b => logicResult_eq (a ||| b),
   writesRegister_of_alu exec_orReg fun a b => logicResult_eq (a ||| b),
   writesMemory_of_alu exec_xorMem fun a b => logicResult_eq (a ^^^ b),
   writesRegister_of_alu exec_xorReg fun a b => logicResult_eq (a ^^^ b)⟩

/-- Settles O23: the flags are the sign of the difference, which saturation keeps. -/
theorem compareResult : Obligations.CompareResult :=
  ⟨comparesMemory_of_compare exec_cpaMem cmpCpa_eq, comparesRegister_of_compare exec_cpaReg cmpCpa_eq,
   comparesMemory_of_compare exec_cplMem cmpCpl_eq, comparesRegister_of_compare exec_cplReg cmpCpl_eq⟩

end Sys2Proof.Proofs
end

section
/-! SUPPORT. The four shifts: the values of the pseudocode, and how a shift by `n + 1` follows from the
shift by `n`. -/

namespace Sys2Proof.Machine

open Sys2Proof.Spec

/-! ## A shift by the effective address -/

section Shift
variable {op : Field → Field → Word → Instr} {f : Word → Nat → Word × BitVec 3}
  {lastOut : Word → Nat → Bool}

/-- R135: a shift writes its value, and the flags of that value with the last bit out for OF. -/
theorem shifts_of_shiftBy {value : Word → Nat → Word}
    (hexec : ∀ s gr xr adr, exec (op gr xr adr) s = shiftBy f gr xr adr s)
    (hvalue : ∀ v n, (f v n).1 = value v n)
    (hflags : ∀ v n, (f v n).2 = frOf (lastOut v n) (f v n).1) : Shifts op value lastOut := by
  have hf (v : Word) (n : Nat) : f v n = (value v n, fr (lastOut v n = true) (value v n)) :=
    Prod.ext (hvalue v n) (by rw [hflags, hvalue, ← frOf_decide, Bool.decide_eq_true])
  intro r xr adr s
  rw [hexec, shiftBy, withRegister_field, hf]
  rfl

/-- R136, R137: a shift is a repetition of `once` when the shift by 0 is the operand with no bit out, and
`once` leads from the shift by `n` to the shift by `n + 1`. -/
theorem shiftsByRepeating_of_shiftBy {once : Word × Bool → Word × Bool}
    (hexec : ∀ s gr xr adr, exec (op gr xr adr) s = shiftBy f gr xr adr s)
    (hflags : ∀ v n, (f v n).2 = frOf (lastOut v n) (f v n).1)
    (hzero : ∀ v, ((f v 0).1, lastOut v 0) = (v, false))
    (hsucc : ∀ v n, once ((f v n).1, lastOut v n) = ((f v (n + 1)).1, lastOut v (n + 1))) :
    ShiftsByRepeating op once := by
  have hiterate (v : Word) (n : Nat) : once^[n] (v, false) = ((f v n).1, lastOut v n) := by
    induction n with
    | zero => exact (hzero v).symm
    | succ n ih => rw [Function.iterate_succ_apply', ih, hsucc]
  exact shifts_of_shiftBy (value := fun v n => (once^[n] (v, false)).1)
    (lastOut := fun v n => (once^[n] (v, false)).2) hexec
    (fun v n => by rw [hiterate]) (fun v n => by rw [hflags, hiterate])

end Shift

/-! ## The values of the pseudocode -/

/-- R142: a left shift is a wrapped product. -/
theorem shiftLeft_eq_ofNat (v : Word) (n : Nat) : v <<< n = BitVec.ofNat 16 (v.toNat * 2 ^ n) := by
  apply BitVec.eq_of_toNat_eq
  rw [BitVec.toNat_shiftLeft, BitVec.toNat_ofNat, Nat.shiftLeft_eq]

/-- R143: a logical right shift is a quotient. -/
theorem ushiftRight_eq_ofNat (v : Word) (n : Nat) : v >>> n = BitVec.ofNat 16 (v.toNat / 2 ^ n) := by
  rw [← Nat.shiftRight_eq_div_pow, ← BitVec.toNat_ushiftRight, BitVec.ofNat_toNat, BitVec.setWidth_eq]

/-- R141: an arithmetic right shift is the wrapped quotient of the signed value, rounded down. -/
theorem sshiftRight_eq_wrap (v : Word) (n : Nat) : v.sshiftRight n = wrap (v.toInt / 2 ^ n) := by
  rw [BitVec.sshiftRight, Int.shiftRight_eq_div_pow]
  rfl

/-! ## One bit more -/

/-- R140: `SLA` keeps bit 15 and shifts the bits below it to the left. -/
theorem getLsbD_shiftSla (v : Word) (n : Nat) {i : Nat} (hi : i < 16) :
    (shiftSla v n).1.getLsbD i = if i = 15 then v.getLsbD 15 else (v <<< n).getLsbD i := by
  have hsign : ∀ i < 16, (0x8000#16).getLsbD i = decide (i = 15) := by decide
  have hrest : ∀ i < 16, (0x7FFF#16).getLsbD i = decide (i ≠ 15) := by decide
  rw [shiftSla, BitVec.getLsbD_or, BitVec.getLsbD_and, BitVec.getLsbD_and, hsign i hi, hrest i hi]
  by_cases h : i = 15 <;> simp [h]

/-- R136: `SLA` by 0. -/
theorem shiftSla_zero (v : Word) : (shiftSla v 0).1 = v := by
  refine BitVec.eq_of_getLsbD_eq fun i hi => ?_
  rw [getLsbD_shiftSla v 0 hi, BitVec.shiftLeft_zero]
  split
  · next h => rw [h]
  · rfl

/-- R137: `SLA` by one bit more. -/
theorem shiftSla_succ (v : Word) (n : Nat) : (shiftSla (shiftSla v n).1 1).1 = (shiftSla v (n + 1)).1 := by
  refine BitVec.eq_of_getLsbD_eq fun i hi => ?_
  rw [getLsbD_shiftSla _ 1 hi, getLsbD_shiftSla v (n + 1) hi, getLsbD_shiftSla v n (by decide)]
  split
  · rfl
  · have hbelow : (shiftSla v n).1.getLsbD (i - 1) = (v <<< n).getLsbD (i - 1) := by
      rw [getLsbD_shiftSla v n (by omega), if_neg (by omega)]
    rw [BitVec.shiftLeft_add, BitVec.getLsbD_shiftLeft, BitVec.getLsbD_shiftLeft, hbelow]

/-- R137: bit `k` after a left shift by `n` is the bit that one more step moves out of it. -/
theorem getLsbD_shiftLeft_eq_ite (v : Word) (n : Nat) {k : Nat} (hk : k < 16) : (v <<< n).getLsbD k =
    if 1 ≤ n + 1 ∧ n + 1 ≤ k + 1 then v.getLsbD (k + 1 - (n + 1)) else false := by
  rw [BitVec.getLsbD_shiftLeft]
  by_cases h : n ≤ k
  · simp [hk, h]
  · simp [h, Nat.lt_of_not_le h]

/-- R140: bit 14 goes out. -/
theorem slaOverflow_succ (v : Word) (n : Nat) : slaOverflow v (n + 1) = (shiftSla v n).1.getLsbD 14 := by
  rw [getLsbD_shiftSla v n (by decide)]
  exact (getLsbD_shiftLeft_eq_ite v n (k := 14) (by decide)).symm

/-- R141: bit 0 goes out, and from the seventeenth bit on it is a copy of bit 15. -/
theorem sraOverflow_succ (v : Word) (n : Nat) : sraOverflow v (n + 1) = (v.sshiftRight n).getLsbD 0 := by
  rw [BitVec.getLsbD_sshiftRight, BitVec.msb_eq_getLsbD_last]
  rfl

/-- R142: bit 15 goes out. -/
theorem sllOverflow_succ (v : Word) (n : Nat) : sllOverflow v (n + 1) = (v <<< n).getLsbD 15 :=
  (getLsbD_shiftLeft_eq_ite v n (k := 15) (by decide)).symm

/-- R143: bit 0 goes out, and from the seventeenth bit on it is a zero that came in. -/
theorem srlOverflow_succ (v : Word) (n : Nat) : srlOverflow v (n + 1) = (v >>> n).getLsbD 0 := by
  rw [BitVec.getLsbD_ushiftRight, srlOverflow]
  by_cases h : n < 16
  · simp [h]
  · rw [if_neg (by omega), BitVec.getLsbD_of_ge v _ (by omega)]

end Sys2Proof.Machine

namespace Sys2Proof.Proofs

open Sys2Proof.Machine Sys2Proof.Spec

/-- Settles O24: each shift's word is the value of its pseudocode, and the model's last bit out is the
pseudocode's conditional. -/
theorem shiftResult : Obligations.ShiftResult :=
  ⟨shifts_of_shiftBy exec_sla (fun v n => by rw [← shiftLeft_eq_ofNat]; rfl)
     fun _ _ => congrArg (frOf · _) (Bool.if_false_right _ _),
   shifts_of_shiftBy exec_sra sshiftRight_eq_wrap fun _ _ => rfl,
   shifts_of_shiftBy exec_sll shiftLeft_eq_ofNat fun _ _ => congrArg (frOf · _) (Bool.if_false_right _ _),
   shifts_of_shiftBy exec_srl ushiftRight_eq_ofNat fun _ _ => congrArg (frOf · _) (Bool.if_false_right _ _)⟩

/-- Settles O25: a shift by 0 is the operand, and one more single-bit step gives the shift by one bit more
and the last bit it moves out. -/
theorem shiftIsRepeatedSingleBitShift : Obligations.ShiftIsRepeatedSingleBitShift :=
  ⟨shiftsByRepeating_of_shiftBy exec_sla (fun _ _ => rfl)
     (fun v => Prod.ext (shiftSla_zero v) rfl)
     fun v n => Prod.ext (shiftSla_succ v n) (slaOverflow_succ v n).symm,
   shiftsByRepeating_of_shiftBy exec_sra (fun _ _ => rfl)
     (fun _ => Prod.ext BitVec.sshiftRight_zero rfl)
     fun v n => Prod.ext BitVec.sshiftRight_add.symm (sraOverflow_succ v n).symm,
   shiftsByRepeating_of_shiftBy exec_sll (fun _ _ => rfl)
     (fun v => Prod.ext (BitVec.shiftLeft_zero v) rfl)
     fun v n => Prod.ext (BitVec.shiftLeft_add v n 1).symm (sllOverflow_succ v n).symm,
   shiftsByRepeating_of_shiftBy exec_srl (fun _ _ => rfl)
     (fun v => Prod.ext (BitVec.ushiftRight_zero v) rfl)
     fun v n => Prod.ext (BitVec.shiftRight_add v n 1).symm (srlOverflow_succ v n).symm⟩

end Sys2Proof.Proofs
end

section
/-! SUPPORT. The six jumps: what `jumpWhen` does in each case, and the table of FR values as the jump's
condition over the values R33 allows. -/

namespace Sys2Proof.Machine

open Sys2Proof.Spec

/-- R148: a taken jump. -/
theorem jumpWhen_true (xr : Field) (adr : Word) (s : State) :
    jumpWhen true xr adr s = .next { s with pr := effectiveAddress s xr adr } := rfl

/-- R148: a jump that is not taken. -/
theorem jumpWhen_false (xr : Field) (adr : Word) (s : State) :
    jumpWhen false xr adr s = .next { s with pr := s.pr + 2 } := rfl

section Jump
variable {op : Field → Word → Instr} {taken : BitVec 3 → Prop}

/-- R148: an instruction that is a `jumpWhen` jumps under any condition on FR that says when its flag test
succeeds. -/
theorem jumps_of_jumpWhen {test : State → Bool}
    (hexec : ∀ s xr adr, exec (op xr adr) s = jumpWhen (test s) xr adr s)
    (htest : ∀ s, test s = true ↔ taken s.fr) : Jumps op taken := by
  intro xr adr s
  rw [hexec, ← htest s]
  constructor
  · intro h
    rw [h, jumpWhen_true]
  · intro h
    rw [Bool.eq_false_of_not_eq_true h, jumpWhen_false]

/-- R149: the table's row of a jump lists the FR values, of those R33 allows, under which its condition
holds. -/
theorem takenExactlyFor_of_jumps {values : List (BitVec 3)} (hjumps : Jumps op taken)
    (hvalues : ∀ f, legalFr f = true → (taken f ↔ f ∈ values)) : TakenExactlyFor op values := by
  intro xr adr s hlegal
  obtain ⟨htaken, hnot⟩ := hjumps xr adr s
  rw [hvalues s.fr hlegal] at htaken hnot
  by_cases h : s.fr ∈ values
  · rw [if_pos h, htaken h]
  · rw [if_neg h, hnot h]

end Jump

end Sys2Proof.Machine

namespace Sys2Proof.Proofs

open Sys2Proof.Machine Sys2Proof.Spec

/-- Settles O26: each jump is a `jumpWhen`, whose test reads the bits of FR that the rule names. -/
theorem jumpResult : Obligations.JumpResult :=
  ⟨jumps_of_jumpWhen exec_jmi fun _ => Iff.rfl,
   jumps_of_jumpWhen exec_jnz fun s => iff_of_eq (Bool.not_eq_true' s.zeroFlag),
   jumps_of_jumpWhen exec_jze fun _ => Iff.rfl,
   jumps_of_jumpWhen exec_jump fun _ => iff_of_true rfl trivial,
   jumps_of_jumpWhen exec_jpl fun s => by
     rw [Bool.and_eq_true, Bool.not_eq_true', Bool.not_eq_true']; rfl,
   jumps_of_jumpWhen exec_jov fun _ => Iff.rfl⟩

/-- Settles O27: by `jumpResult`, each row of the table is a question about the FR values that R33 allows. -/
theorem jumpConditionTable : Obligations.JumpConditionTable := by
  obtain ⟨hjmi, hjnz, hjze, hjump, hjpl, hjov⟩ := jumpResult
  exact ⟨takenExactlyFor_of_jumps hjmi (by decide), takenExactlyFor_of_jumps hjnz (by decide),
    takenExactlyFor_of_jumps hjze (by decide),
    takenExactlyFor_of_jumps hjump fun f hf => iff_of_true trivial (mem_of_legalFr f hf),
    takenExactlyFor_of_jumps hjpl (by decide), takenExactlyFor_of_jumps hjov (by decide)⟩

end Sys2Proof.Proofs
end

section
/-! SUPPORT. The stack instructions: what a word pushed reads back as, what `POP` and `RET` answer, and the
words that decode to `RET`. -/

namespace Sys2Proof.Machine

open Sys2Proof.Spec

/-! ## A read after a push -/

/-- R158: the word at the slot `SP - 1` is the pushed one, every other word is as before. -/
theorem State.readMem_pushWord (s : State) (v a : Word) (hs : Memory.wf s.mem = true) :
    (s.pushWord v).readMem a = if a = s.sp - 1 then v else s.readMem a :=
  State.readMem_writeMem (s.setSp (s.sp - 1)) (s.sp - 1) v a hs

/-- R158: the word that a pop reads after a push. -/
theorem State.topWord_pushWord (s : State) (v : Word) (hs : Memory.wf s.mem = true) :
    (s.pushWord v).topWord = v :=
  (s.readMem_pushWord v (s.sp - 1) hs).trans (if_pos rfl)

/-- R158 (D4): a pop undoes a push but for the word at the slot. -/
theorem State.dropWord_pushWord (s : State) (v : Word) :
    (s.pushWord v).dropWord = { s with mem := (s.pushWord v).mem } := by
  have hsp : s.sp - 1#16 + 1#16 = s.sp := BitVec.sub_add_cancel s.sp 1
  simp [State.dropWord, State.setSp, State.pushWord, State.writeMem, hsp]

/-! ## POP and RET -/

/-- R161: `POP` with a field that names a register. -/
theorem exec_pop_field (r : Reg) (s : State) :
    exec (.pop (field r)) s = .next ((s.writeGr r s.topWord).dropWord.advance 1) := by
  rw [exec_pop, withRegister_field]

/-- R163: `RET` below `STACK_TOP` runs on. -/
theorem exec_ret_of_lt (s : State) (h : s.sp.toNat < 0xFF00) :
    exec .ret s = .next (s.setPr s.topWord).dropWord := by
  have hle : ¬ Config.stackTop.toNat < s.sp.toNat + 1 := Nat.not_lt.2 h
  rw [exec_ret, if_neg hle]

/-- R163: `RET` at or above `STACK_TOP` ends the run. -/
theorem exec_ret_of_ge (s : State) (h : 0xFF00 ≤ s.sp.toNat) :
    exec .ret s = .next ((s.setPr s.topWord).dropWord.setStatus .terminated) := by
  have hlt : Config.stackTop.toNat < s.sp.toNat + 1 := Nat.lt_succ_of_le h
  rw [exec_ret, if_pos hlt]

/-- R72, R75: every word of the opcode of `RET` decodes to it. -/
theorem decode_of_opOf_ret {word : Word} (h : opOf word = 0x81) (adr : Word) :
    decode word adr = .ok .ret := by
  rw [decode, h]
  rfl

/-- R82, R163: a step on a word of the opcode of `RET`. -/
theorem step_of_opOf_ret {s : State} (hs : s.status = .running) (h : opOf (s.readMem s.pr) = 0x81) :
    step s = exec .ret s :=
  step_of_decode hs (decode_of_opOf_ret h _)

/-! ## A pop that finds the pushed word -/

section AfterPush
variable (s : State) (v : Word)

/-- R160, R161: `POP` after the push of `PUSH`. -/
theorem exec_pop_field_of_pushWord (r : Reg) (hs : Memory.wf s.mem = true) :
    exec (.pop (field r)) ((s.pushWord v).advance 2) =
      .next { s with gr := s.gr.set r v, mem := (s.pushWord v).mem, pr := s.pr + 3 } := by
  have hpr : s.pr + 2 + 1 = s.pr + 3 := BitVec.add_assoc s.pr 2 1
  calc exec (.pop (field r)) ((s.pushWord v).advance 2)
      = .next { (s.pushWord v).dropWord with
          gr := s.gr.set r (s.pushWord v).topWord, pr := s.pr + 2 + 1 } := exec_pop_field r _
    _ = .next { s with gr := s.gr.set r v, mem := (s.pushWord v).mem, pr := s.pr + 3 } := by
        rw [State.dropWord_pushWord, State.topWord_pushWord s v hs, hpr]

/-- R162, R163: `RET` after the push of `CALL`, to a target `a`, where the slot is below `STACK_TOP`. -/
theorem exec_ret_of_pushWord (a : Word) (hs : Memory.wf s.mem = true) (h : (s.sp - 1).toNat < 0xFF00) :
    exec .ret ((s.pushWord v).setPr a) = .next { s with mem := (s.pushWord v).mem, pr := v } := by
  calc exec .ret ((s.pushWord v).setPr a)
      = .next { (s.pushWord v).dropWord with pr := (s.pushWord v).topWord } :=
        exec_ret_of_lt ((s.pushWord v).setPr a) h
    _ = .next { s with mem := (s.pushWord v).mem, pr := v } := by
        rw [State.dropWord_pushWord, State.topWord_pushWord s v hs]

end AfterPush

end Sys2Proof.Machine

namespace Sys2Proof.Proofs

open Sys2Proof.Machine Sys2Proof.Spec

/-- Settles O28, by a read after a push. -/
theorem pushAndCallResult : Obligations.PushAndCallResult := by
  intro xr adr s hs
  exact ⟨⟨_, exec_push s xr adr, fun a => s.readMem_pushWord _ a hs, rfl⟩,
    ⟨_, exec_call s xr adr, fun a => s.readMem_pushWord _ a hs, rfl⟩⟩

/-- Settles O29, by the register the field names. -/
theorem popResult : Obligations.PopResult :=
  exec_pop_field

/-- Settles O30, by the two cases of the test on SP. -/
theorem returnResult : Obligations.ReturnResult := fun s =>
  ⟨exec_ret_of_lt s, exec_ret_of_ge s⟩

/-- Settles O31: `POP` finds the word that `PUSH` stored, and its SP is the one before both. -/
theorem pushThenPopRestores : Obligations.PushThenPopRestores := by
  intro s t u xr adr r hs hpush hpop
  rw [exec_push] at hpush
  obtain rfl := Host.Outcome.next.inj hpush
  rw [exec_pop_field_of_pushWord s _ r hs] at hpop
  obtain rfl := Host.Outcome.next.inj hpop
  exact ⟨rfl, fun a ha => readMem_pushWord_other s _ a ha⟩

/-- Settles O32: the word at the target decodes to `RET`, which finds the return address that `CALL` stored;
the slot is below `STACK_TOP`, so the machine runs on. -/
theorem callThenReturnComesBack : Obligations.CallThenReturnComesBack := by
  intro s t xr adr hs hrun hlow hhigh hdecode hstep hret
  rw [step_of_decode hrun hdecode, exec_call] at hstep
  obtain rfl := Host.Outcome.next.inj hstep
  have hslot : (s.sp - 1).toNat < 0xFF00 := by bv_omega
  have hback : step ((s.pushWord (s.pr + 2)).setPr (effectiveAddress s xr adr)) = exec .ret _ :=
    step_of_opOf_ret hrun hret
  exact ⟨_, hback.trans (exec_ret_of_pushWord s _ _ hs hslot), rfl,
    fun a ha => readMem_pushWord_other s _ a ha⟩

end Sys2Proof.Proofs
end

section
/-! SUPPORT. The supervisor call: what the two services write, memory after stored bytes, and the frame of the
host's streams; and what ends a run, by the cases of a step. -/

namespace Sys2Proof

/-- R78: a decoded instruction has the opcode of the word it is read from. -/
theorem opOf_encode_of_decode {word adr : Word} {i : Instr} (h : decode word adr = .ok i) :
    opOf ((encode i).headD 0) = opOf word := by
  obtain ⟨row, -, -, hwords⟩ := decode_ok h
  rw [hwords, formatWords_eq, List.headD_cons, opOf_and_usedBits]

/-- R75: `RET` is read from words of its own opcode alone. -/
theorem opOf_of_decode_ret {word adr : Word} (h : decode word adr = .ok .ret) : opOf word = 0x81 :=
  (opOf_encode_of_decode h).symm.trans (opOf_packWord _ _ _)

end Sys2Proof

namespace Sys2Proof.Machine

open Sys2Proof.Spec

/-! ## The host's streams and the run status -/

/-- R170: only the effect of `SVC` reaches the host's streams. -/
theorem Effect.streams_of_ne_svc {i : Instr} {g : State → State} (h : Effect i g)
    (hi : ∀ xr adr, i ≠ .svc xr adr) (s : State) :
    (g s).input = s.input ∧ (g s).freeReads = s.freeReads ∧ (g s).output = s.output := by
  cases h with
  | svc xr adr hsvc => exact absurd hsvc (hi xr adr)
  | jump => dsimp only; split <;> exact ⟨rfl, rfl, rfl⟩
  | ret => dsimp only; split <;> exact ⟨rfl, rfl, rfl⟩
  | result | compare | st | lad | push | pop | call | nop => exact ⟨rfl, rfl, rfl⟩

/-- R202: of the well-formed instructions only `RET` writes the run status. -/
theorem status_of_exec {i : Instr} {s t : State} (hexec : exec i s = .next t) (hi : i ≠ .ret)
    (hwf : i.wellFormed = true) : t.status = s.status := by
  obtain ⟨u, hu, hstatus⟩ := exec_status_of_wellFormed i s hwf hi
  rw [hexec] at hu
  obtain rfl := Host.Outcome.next.inj hu
  exact hstatus

/-! ## The cases of a step -/

/-- R82: everything a step that has a next state can have done: it ran the decoded instruction, or raised the
exception on a word with no opcode of the map. -/
theorem step_cases {s t : State} (h : step s = .next t) :
    s.status = .running ∧
      ((∃ i, decode (s.readMem s.pr) (s.readMem (s.pr + 1)) = .ok i ∧ exec i s = .next t) ∨
        ((∀ row ∈ opcodeMap, row.op ≠ opOf (s.readMem s.pr)) ∧ t = illegalAt s)) := by
  have hrun : s.status = .running := by
    by_contra hfinal
    rw [step_of_not_running s hfinal] at h
    cases h
  refine ⟨hrun, ?_⟩
  rcases decode_cases (s.readMem s.pr) (s.readMem (s.pr + 1)) with ⟨i, -, hi, -⟩ | ⟨-, hnone⟩
  · exact .inl ⟨i, hi, (step_of_decode hrun hi).symm.trans h⟩
  · have hunlisted := (lookupOp_eq_none_iff _).1 hnone
    rw [step_of_unlisted hrun hunlisted] at h
    exact .inr ⟨hunlisted, (Host.Outcome.next.inj h).symm⟩

/-- R163, R202: a `RET` that does not leave the machine running ends the run. -/
theorem terminated_of_exec_ret {s t : State} (hrun : s.status = .running) (hexec : exec .ret s = .next t)
    (hstop : t.status ≠ .running) :
    0xFF00 ≤ s.sp.toNat ∧ t = { s with pr := s.readMem s.sp, sp := s.sp + 1, status := .terminated } := by
  by_cases hsp : s.sp.toNat < 0xFF00
  · rw [exec_ret_of_lt s hsp] at hexec
    obtain rfl := Host.Outcome.next.inj hexec
    exact absurd hrun hstop
  · have hge := Nat.not_lt.1 hsp
    rw [exec_ret_of_ge s hge] at hexec
    exact ⟨hge, (Host.Outcome.next.inj hexec).symm⟩

/-! ## Memory after stored bytes -/

/-- R172: one byte per word from `a` on, every other word as before. -/
theorem readMem_storeBytes (s : State) (a b : Word) (bs : List Byte) (hs : Memory.wf s.mem = true)
    (hlen : bs.length ≤ 65536) :
    (s.storeBytes a bs).readMem b =
      if (b - a).toNat < bs.length then zext16 (bs.getD (b - a).toNat 0) else s.readMem b := by
  split
  case isTrue hin =>
    have haddr : a + BitVec.ofNat 16 (b - a).toNat = b := by
      rw [BitVec.ofNat_toNat, BitVec.setWidth_eq, BitVec.add_comm, BitVec.sub_add_cancel]
    have hread := readMem_storeBytes_inside s a bs hs (b - a).toNat hin hlen
    rw [haddr] at hread
    rw [hread, List.getD_eq_getElem _ _ hin]
  case isFalse hout => exact readMem_storeBytes_outside s a bs b (Nat.le_of_not_lt hout)

/-! ## The services -/

/-- R174: the line comes from the front of the host's queue or, with nothing queued, is the free value. -/
theorem hostIn_line (s : State) :
    s.input = s.hostIn.1 :: s.hostIn.2.input ∨
      (s.input = [] ∧ s.hostIn.2.input = [] ∧ s.hostIn.1 = Config.hostLine s.freeReads) := by
  cases hinput : s.input with
  | nil => rw [hostIn_free s hinput]; exact .inr ⟨rfl, hinput, rfl⟩
  | cons line rest => rw [hostIn_queued s line rest hinput]; exact .inl rfl

@[simp] theorem serviceIn_input (s : State) : s.serviceIn.input = s.hostIn.2.input := by
  simp [State.serviceIn]

/-- R172: the input service changes only memory and the host's input. -/
theorem serviceIn_frame (s : State) :
    s.serviceIn =
      { s with
        mem := s.serviceIn.mem
        input := s.serviceIn.input
        freeReads := s.serviceIn.freeReads } :=
  (State.mk.injEq ..).mpr ⟨serviceIn_gr s, serviceIn_pr s, serviceIn_sp s, serviceIn_fr s, rfl,
    serviceIn_status s, rfl, rfl, serviceIn_output s⟩

/-- R172: memory after the input service: the bytes kept of the line stand over the length word, which stands
over what was there. -/
theorem readMem_serviceIn (s : State) (a : Word) (hs : Memory.wf s.mem = true) :
    s.serviceIn.readMem a =
      if (a - s.gr[(1 : Reg)]).toNat < min s.hostIn.1.length 256 then
        zext16 (s.hostIn.1.getD (a - s.gr[(1 : Reg)]).toNat 0)
      else if a = s.gr[(2 : Reg)] then BitVec.ofNat 16 (min s.hostIn.1.length 256)
      else s.readMem a := by
  have hkept : (s.hostIn.1.take Config.inMax).length = min s.hostIn.1.length 256 := by
    rw [List.length_take, Nat.min_comm]; rfl
  have hin : Memory.wf s.hostIn.2.mem = true := (hostIn_mem s).symm ▸ hs
  have hbyte (k : Nat) (hk : k < min s.hostIn.1.length 256) :
      (s.hostIn.1.take Config.inMax).getD k 0 = s.hostIn.1.getD k 0 := by
    rw [List.getD_eq_getElem?_getD, List.getD_eq_getElem?_getD, Config.inMax,
      List.getElem?_take_of_lt (lt_min_iff.1 hk).2]
  rw [State.serviceIn, readMem_storeBytes _ _ _ _ (State.wf_writeMem _ _ _ hin) (by omega), hkept,
    State.readMem_writeMem _ _ _ _ hin, State.readMem_of_mem _ _ (hostIn_mem s)]
  exact ite_congr rfl (fun hk => congrArg zext16 (hbyte _ hk)) fun _ => rfl

/-- R170, R171: `SVC` with the number of the input service. -/
theorem exec_svc_of_sysIn {s : State} {xr : Field} {adr : Word}
    (h : effectiveAddress s xr adr = Config.sysIn) :
    exec (.svc xr adr) s = .next (s.serviceIn.advance 2) := by
  rw [exec_svc, h, service_sysIn]

/-- R171: the number of the output service selects it. -/
theorem service_sysOut (s : State) : s.service Config.sysOut = s.serviceOut :=
  if_neg (by decide)

/-- R170, R171: `SVC` with the number of the output service. -/
theorem exec_svc_of_sysOut {s : State} {xr : Field} {adr : Word}
    (h : effectiveAddress s xr adr = Config.sysOut) :
    exec (.svc xr adr) s = .next (s.serviceOut.advance 2) := by
  rw [exec_svc, h, service_sysOut]

/-- R171 (D12): a number outside the service table selects nothing. -/
theorem service_of_ne (s : State) (number : Word) (hin : number ≠ Config.sysIn)
    (hout : number ≠ Config.sysOut) : s.service number = s := by
  rw [State.service, if_neg hin, if_neg hout]

/-- R173: the bytes the output service sends. -/
theorem serviceOut_eq (s : State) :
    s.serviceOut = { s with
      output := s.output ++
        ((List.range (s.readMem s.gr[(2 : Reg)]).toNat).map fun k =>
          (s.readMem (s.gr[(1 : Reg)] + BitVec.ofNat 16 k)).extractLsb' 0 8) ++ [0x0A] } := by
  have hlow (w : Word) : w.setWidth 8 = w.extractLsb' 0 8 := BitVec.setWidth_eq_extractLsb' (by decide)
  simp only [State.serviceOut, State.hostOut, loadBytes_eq, hlow, List.append_assoc]
  rfl

end Sys2Proof.Machine

namespace Sys2Proof.Proofs

open Sys2Proof.Machine

/-- Settles O14: of what a step can do, only the exception and a `RET` from the main routine write the run
status. -/
theorem runEndsOnlyByRetOrIllegal : Obligations.RunEndsOnlyByRetOrIllegal := by
  intro s t hstep hstop
  obtain ⟨hrun, ⟨i, hdecode, hexec⟩ | ⟨hunlisted, hillegal⟩⟩ := step_cases hstep
  · by_cases hwf : i.wellFormed = true
    · obtain rfl : i = .ret := by
        by_contra hi
        exact hstop ((status_of_exec hexec hi hwf).trans hrun)
      exact .inr ⟨opOf_of_decode_ret hdecode, terminated_of_exec_ret hrun hexec hstop⟩
    · rw [exec_of_not_wellFormed i hwf s] at hexec
      exact .inl ⟨(Host.Outcome.next.inj hexec).symm, .inr ⟨i, hdecode, Bool.eq_false_iff.2 hwf⟩⟩
  · exact .inl ⟨hillegal, .inl hunlisted⟩

/-- Settles O33: the line is what `HostIn` gives, the memory what `readMem_serviceIn` says, the rest the
frame. -/
theorem inputServiceResult : Obligations.InputServiceResult := by
  intro xr adr s hs headr
  refine ⟨s.hostIn.1, _, exec_svc_of_sysIn headr, ?_, fun a => readMem_serviceIn s a hs, ?_⟩
  · rw [State.advance_input, serviceIn_input]
    exact hostIn_line s
  · exact congrArg (State.advance · 2) (serviceIn_frame s)

/-- Settles O40, by the frames of an effect; the exception leaves the host's streams. -/
theorem hostStreamsAndStatusFrame : Obligations.HostStreamsAndStatusFrame := by
  refine fun i s t hexec => ⟨fun hsvc => ?_, status_of_exec hexec⟩
  rcases exec_next i s t hexec with ⟨-, g, hg, rfl⟩ | ⟨-, rfl⟩
  · exact hg.streams_of_ne_svc hsvc s
  · exact ⟨rfl, rfl, rfl⟩

/-- Settles O34, by what the service sends. -/
theorem outputServiceResult : Obligations.OutputServiceResult := by
  intro xr adr s headr
  rw [exec_svc_of_sysOut headr, serviceOut_eq]
  rfl

/-- Settles O35: no service is selected. -/
theorem unknownServiceAndNopOnlyAdvance : Obligations.UnknownServiceAndNopOnlyAdvance := by
  refine ⟨fun xr adr s hin hout => ?_, exec_nop⟩
  rw [exec_svc, service_of_ne s _ hin hout]
  rfl

end Sys2Proof.Proofs
end

section
/-! SUPPORT. Runs of several steps and the host control port: a running machine always steps, the equations of
`stepTimes`, and where `runToBreakpoint` stops. -/

namespace Sys2Proof.Machine

/-! ## A running machine steps -/

/-- R203: every instruction has a next state in every state. -/
theorem exists_exec_next (i : Instr) (s : State) : ∃ t, exec i s = .next t := by
  by_cases hi : i.wellFormed = true
  · obtain ⟨g, -, hexec⟩ := exec_of_wellFormed i hi
    exact ⟨g s, hexec s⟩
  · exact ⟨_, exec_of_not_wellFormed i hi s⟩

/-- R203: in `running` there is no fault and no refusal. -/
theorem exists_step_next {s : State} (hs : s.status = .running) : ∃ t, step s = .next t := by
  rcases decode_cases (s.readMem s.pr) (s.readMem (s.pr + 1)) with ⟨i, -, hi, -⟩ | ⟨-, hnone⟩
  · rw [step_of_decode hs hi]
    exact exists_exec_next i s
  · exact ⟨_, step_of_unlisted hs ((lookupOp_eq_none_iff _).1 hnone)⟩

/-! ## Several steps -/

@[simp] theorem stepTimes_zero (s : State) : stepTimes 0 s = s := rfl

theorem stepTimes_succ_of_step {s t : State} (h : step s = .next t) (n : Nat) :
    stepTimes (n + 1) s = stepTimes n t := by
  simp only [stepTimes, h]

/-- R208: nothing happens from a final run status. -/
theorem stepTimes_of_not_running {s : State} (h : s.status ≠ .running) (n : Nat) : stepTimes n s = s := by
  cases n with
  | zero => rfl
  | succ n => simp only [stepTimes, step_of_not_running s h]

theorem stepTimes_add (n k : Nat) (s : State) : stepTimes (n + k) s = stepTimes k (stepTimes n s) := by
  induction n generalizing s with
  | zero => rw [Nat.zero_add, stepTimes_zero]
  | succ n ih =>
    by_cases hs : s.status = .running
    · obtain ⟨t, ht⟩ := exists_step_next hs
      rw [Nat.add_right_comm, stepTimes_succ_of_step ht, stepTimes_succ_of_step ht, ih]
    · simp only [stepTimes_of_not_running hs]

/-! ## Running to a breakpoint -/

/-- R214: the states `run` stops in. -/
def StopsRun (breakpoints : List Word) (t : State) : Prop := t.status ≠ .running ∨ t.pr ∈ breakpoints

/-- R214: `n` is the least number of steps, at least one, after which `run` stops. -/
def FirstStop (breakpoints : List Word) (s : State) (n : Nat) : Prop :=
  1 ≤ n ∧ StopsRun breakpoints (stepTimes n s) ∧
    ∀ k, 1 ≤ k → k < n → ¬ StopsRun breakpoints (stepTimes k s)

section FirstStop
variable {breakpoints : List Word} {s u : State}

/-- After one step, either `run` stops there or the least number of steps is one more than from there. -/
theorem firstStop_succ_iff (hstep : step s = .next u) (n : Nat) :
    FirstStop breakpoints s (n + 1) ↔
      (StopsRun breakpoints u ∧ n = 0) ∨ (¬ StopsRun breakpoints u ∧ FirstStop breakpoints u n) := by
  have hsucc := stepTimes_succ_of_step hstep
  constructor
  · rintro ⟨-, hstop, hbefore⟩
    rw [hsucc] at hstop
    cases n with
    | zero => exact .inl ⟨hstop, rfl⟩
    | succ m =>
      have hshift (k : Nat) (hk : k < m + 1) : ¬ StopsRun breakpoints (stepTimes k u) := by
        rw [← hsucc]
        exact hbefore (k + 1) (by omega) (by omega)
      exact .inr ⟨hshift 0 (by omega), by omega, hstop, fun k _ => hshift k⟩
  · rintro (⟨hu, rfl⟩ | ⟨hu, -, hstop, hbefore⟩)
    · exact ⟨le_rfl, by rwa [hsucc], fun k _ _ => by omega⟩
    · refine ⟨by omega, by rwa [hsucc], fun k hk hkn => ?_⟩
      obtain ⟨j, rfl⟩ := Nat.exists_eq_add_of_le' hk
      rw [hsucc]
      cases j with
      | zero => exact hu
      | succ j => exact hbefore (j + 1) (by omega) (by omega)

theorem runToBreakpoint_succ_of_stopsRun (hstep : step s = .next u) (hu : StopsRun breakpoints u)
    (bound : Nat) : runToBreakpoint breakpoints (bound + 1) s = some u := by
  simp only [runToBreakpoint, hstep]
  exact if_pos hu

theorem runToBreakpoint_succ_of_not_stopsRun (hstep : step s = .next u) (hu : ¬ StopsRun breakpoints u)
    (bound : Nat) : runToBreakpoint breakpoints (bound + 1) s = runToBreakpoint breakpoints bound u := by
  simp only [runToBreakpoint, hstep]
  exact if_neg hu

/-- The stops within `bound + 1` steps, counted from the state after the first. -/
theorem exists_firstStop_succ (hstep : step s = .next u) (bound : Nat) (t : State) :
    (∃ n ≤ bound + 1, FirstStop breakpoints s n ∧ t = stepTimes n s) ↔
      ∃ n ≤ bound, FirstStop breakpoints s (n + 1) ∧ t = stepTimes n u := by
  constructor
  · rintro ⟨n, hn, hfirst, rfl⟩
    obtain ⟨m, rfl⟩ := Nat.exists_eq_add_of_le' hfirst.1
    exact ⟨m, by omega, hfirst, stepTimes_succ_of_step hstep m⟩
  · rintro ⟨n, hn, hfirst, rfl⟩
    exact ⟨n + 1, by omega, hfirst, (stepTimes_succ_of_step hstep n).symm⟩

end FirstStop

/-- R214: from a running state `run` answers the state at its first stop, when that is within the bound. -/
theorem runToBreakpoint_eq_some_iff (breakpoints : List Word) (bound : Nat) (s t : State)
    (hs : s.status = .running) : runToBreakpoint breakpoints bound s = some t ↔
      ∃ n ≤ bound, FirstStop breakpoints s n ∧ t = stepTimes n s := by
  induction bound generalizing s with
  | zero =>
    have hnone : runToBreakpoint breakpoints 0 s = none := if_pos hs
    rw [hnone]
    refine ⟨nofun, ?_⟩
    rintro ⟨n, hn, ⟨hpos, -⟩, -⟩
    omega
  | succ bound ih =>
    obtain ⟨u, hstep⟩ := exists_step_next hs
    rw [exists_firstStop_succ hstep]
    simp only [firstStop_succ_iff hstep]
    by_cases hu : StopsRun breakpoints u
    · rw [runToBreakpoint_succ_of_stopsRun hstep hu]
      simp [hu, eq_comm]
    · have hrun : u.status = .running := by
        by_contra hfinal
        exact hu (.inl hfinal)
      rw [runToBreakpoint_succ_of_not_stopsRun hstep hu, ih u hrun]
      simp [hu]

/-! ## The host's commands -/

/-- R215: of the commands that answer `done`, only a load and the two that execute instructions write GR, SP
or FR. -/
theorem registers_of_perform {d d' : Session} {c : HostCommand} (h : d.perform c = .done d')
    (hfile : ∀ bytes, c ≠ .file bytes) (hstep : ∀ n, c ≠ .step n) (hrun : ∀ n, c ≠ .run n) :
    d'.machine.gr = d.machine.gr ∧ d'.machine.sp = d.machine.sp ∧ d'.machine.fr = d.machine.fr := by
  cases c with
  | file bytes => exact absurd rfl (hfile bytes)
  | step n => exact absurd rfl (hstep n)
  | run n => exact absurd rfl (hrun n)
  | inspect what => cases h
  | jump | memory | addBreak | deleteBreak | supply =>
    obtain rfl := HostAnswer.done.inj h
    exact ⟨rfl, rfl, rfl⟩

end Sys2Proof.Machine

namespace Sys2Proof.Proofs

open Sys2Proof.Machine

/-- Settles O10. -/
theorem unlistedOpcodeRaisesIllegalInstruction : Obligations.UnlistedOpcodeRaisesIllegalInstruction :=
  fun _ => step_of_unlisted

/-- Settles O13: the word at PR decodes and `exec` answers a next state, or the exception is the next state. -/
theorem runningMachineAlwaysSteps : Obligations.RunningMachineAlwaysSteps :=
  fun _ => exists_step_next

/-- Settles O52, by the equations of `stepTimes`. -/
theorem stepCommandTakesSteps : Obligations.StepCommandTakesSteps :=
  ⟨stepTimes_zero, stepTimes_add, fun n _ _ h => stepTimes_succ_of_step h n,
    fun n _ h => stepTimes_of_not_running h n, fun _ => ⟨fun _ => rfl, rfl⟩⟩

/-- Settles O53: the obligation writes out the first stop of `runToBreakpoint_eq_some_iff`. -/
theorem runStopsAtTheFirstBreakpoint : Obligations.RunStopsAtTheFirstBreakpoint := by
  intro breakpoints bound s t hs
  rw [runToBreakpoint_eq_some_iff breakpoints bound s t hs]
  constructor
  · rintro ⟨n, hn, ⟨hpos, hstop, hbefore⟩, rfl⟩
    refine ⟨n, hpos, hn, rfl, hstop, fun k hk hkn => ?_⟩
    simpa [StopsRun] using hbefore k hk hkn
  · rintro ⟨n, hpos, hn, rfl, hstop, hbefore⟩
    refine ⟨n, hn, ⟨hpos, hstop, fun k hk hkn => ?_⟩, rfl⟩
    simpa [StopsRun] using hbefore k hk hkn

/-- Settles O51: the three commands compute, and the others keep the registers. -/
theorem hostJumpAndMemory : Obligations.HostJumpAndMemory := fun _ =>
  ⟨fun _ => rfl, fun _ _ => rfl, fun _ => rfl, fun _ _ => registers_of_perform⟩

end Sys2Proof.Proofs
end

section
/-! SUPPORT. The object file and the load (70_reset_and_hazards.md rules R230 to R243): the bytes of a joined
word, the words of an image's bytes, the four answers of the decoder and the three of a load. -/

namespace Sys2Proof.Machine

/-! ## Words and their bytes -/

@[simp] theorem highByte_joinBytes (high low : Byte) : highByte (joinBytes high low) = high := by
  apply BitVec.eq_of_toNat_eq
  have hhigh := high.isLt
  have hlow := low.isLt
  rw [joinBytes_eq, highByte]
  simp [Nat.shiftRight_eq_div_pow]
  omega

@[simp] theorem lowByte_joinBytes (high low : Byte) : lowByte (joinBytes high low) = low := by
  apply BitVec.eq_of_toNat_eq
  have hlow := low.isLt
  rw [joinBytes_eq, lowByte]
  simp
  omega

@[simp] theorem wordBytes_joinBytes (high low : Byte) : wordBytes (joinBytes high low) = [high, low] := by
  simp [wordBytes]

/-- R236: serialising the words of an even number of bytes gives the bytes back. -/
theorem flatMap_imageWords : ∀ bs : List Byte, bs.length % 2 = 0 → (imageWords bs).flatMap wordBytes = bs
  | [], _ => rfl
  | [_], heven => by simp at heven
  | high :: low :: rest, heven => by
    have hrest : rest.length % 2 = 0 := by
      simp only [List.length_cons] at heven
      omega
    rw [imageWords, List.flatMap_cons, wordBytes_joinBytes, flatMap_imageWords rest hrest]
    rfl

@[simp] theorem length_imageWords : ∀ bs : List Byte, (imageWords bs).length = bs.length / 2
  | [] => rfl
  | [_] => by simp [imageWords]
  | high :: low :: rest => by
    simp only [imageWords, List.length_cons, length_imageWords rest]
    omega

/-- R235: word `i` of an image is joined from bytes `2i` and `2i + 1`. -/
theorem getD_imageWords : ∀ (bs : List Byte) (i : Nat), i < bs.length / 2 →
    (imageWords bs).getD i 0 = joinBytes (bs.getD (2 * i) 0) (bs.getD (2 * i + 1) 0)
  | [], _, hi => by simp at hi
  | [_], _, hi => by simp at hi
  | _ :: _ :: _, 0, _ => rfl
  | high :: low :: rest, i + 1, hi => by
    have hrest : i < rest.length / 2 := by
      simp only [List.length_cons] at hi
      omega
    exact getD_imageWords rest i hrest

/-! ## The encoder -/

/-- R233: the sixteen header bytes, and the image after them. -/
theorem encodeObject_eq (entry : Word) (image : List Word) :
    encodeObject entry image =
      [0x43, 0x41, 0x53, 0x4C, highByte entry, lowByte entry, 0, 0, 0, 0, 0, 0, 0, 0, 0, 0] ++
        image.flatMap wordBytes := rfl

@[simp] theorem length_encodeObject (entry : Word) (image : List Word) :
    (encodeObject entry image).length = 16 + 2 * image.length := by
  rw [encodeObject_eq, List.length_append, length_flatMap_wordBytes]
  rfl

/-! ## The decoder -/

section Decode
variable {f : List Byte}

theorem decodeObject_badMagic (h : f.length < 4 ∨ f.take 4 ≠ Config.magic) :
    decodeObject f = .error .badMagic := if_pos h

/-- R235: a file with the magic is at least as long as it. -/
theorem length_of_magic (hmagic : f.take 4 = Config.magic) : 4 ≤ f.length := by
  have h := congrArg List.length hmagic
  rw [List.length_take] at h
  change min 4 f.length = 4 at h
  omega

/-- R235: what the decoder does once the magic is there. -/
theorem decodeObject_of_magic (hmagic : f.take 4 = Config.magic) :
    decodeObject f =
      if f.length < 16 then .error .shortHeader
      else if (f.length - 16) % 2 = 1 then .error .oddLength
      else .ok (joinBytes (f.getD 4 0) (f.getD 5 0), imageWords (f.drop 16)) :=
  if_neg fun h => h.elim (Nat.not_lt.2 (length_of_magic hmagic)) (absurd hmagic)

theorem decodeObject_shortHeader (hmagic : f.take 4 = Config.magic) (hshort : f.length < 16) :
    decodeObject f = .error .shortHeader := by
  rw [decodeObject_of_magic hmagic, if_pos hshort]

theorem decodeObject_oddLength (hmagic : f.take 4 = Config.magic) (hlen : 16 ≤ f.length)
    (hodd : (f.length - 16) % 2 = 1) : decodeObject f = .error .oddLength := by
  rw [decodeObject_of_magic hmagic, if_neg (Nat.not_lt.2 hlen), if_pos hodd]

theorem decodeObject_wellFormed (hmagic : f.take 4 = Config.magic) (hlen : 16 ≤ f.length)
    (heven : (f.length - 16) % 2 = 0) :
    decodeObject f = .ok (joinBytes (f.getD 4 0) (f.getD 5 0), imageWords (f.drop 16)) := by
  rw [decodeObject_of_magic hmagic, if_neg (Nat.not_lt.2 hlen), if_neg (by omega)]

/-- R235: a file that decodes passed the three checks, and its entry point and image are read off it. -/
theorem decodeObject_ok {entry : Word} {image : List Word} (h : decodeObject f = .ok (entry, image)) :
    f.take 4 = Config.magic ∧ 16 ≤ f.length ∧ (f.length - 16) % 2 = 0 ∧
      entry = joinBytes (f.getD 4 0) (f.getD 5 0) ∧ image = imageWords (f.drop 16) := by
  by_cases hmagic : f.take 4 = Config.magic
  · rw [decodeObject_of_magic hmagic] at h
    split at h
    · cases h
    · split at h
      · cases h
      · cases h
        exact ⟨hmagic, by omega, by omega, rfl, rfl⟩
  · rw [decodeObject_badMagic (.inr hmagic)] at h
    cases h

/-- R233: the fields of a file, one after the other. -/
theorem eq_append_fields (hlen : 16 ≤ f.length) :
    f = f.take 4 ++ [f.getD 4 0, f.getD 5 0] ++ (f.drop 6).take 10 ++ f.drop 16 := by
  have hentry : f.drop 4 = f.getD 4 0 :: f.getD 5 0 :: f.drop 6 := by
    rw [List.drop_eq_getElem_cons (by omega), List.drop_eq_getElem_cons (by omega),
      List.getD_eq_getElem _ _ (by omega), List.getD_eq_getElem _ _ (by omega)]
  calc f = f.take 4 ++ f.drop 4 := (List.take_append_drop 4 f).symm
    _ = f.take 4 ++ f.getD 4 0 :: f.getD 5 0 :: ((f.drop 6).take 10 ++ (f.drop 6).drop 10) := by
      rw [hentry, List.take_append_drop]
    _ = _ := by simp

end Decode

/-- R236: decoding reads back what was encoded. -/
theorem decodeObject_encodeObject (entry : Word) (image : List Word) :
    decodeObject (encodeObject entry image) = .ok (entry, image) := by
  have hlen := length_encodeObject entry image
  rw [decodeObject_wellFormed rfl (by omega) (by omega)]
  change Except.ok (joinBytes (highByte entry) (lowByte entry), imageWords (image.flatMap wordBytes)) = _
  rw [joinBytes_split, imageWords_flatMap]

/-- R236: encoding what a file decodes to gives the file, where its unused bytes are zero. -/
theorem encodeObject_of_decodeObject {f : List Byte} {entry : Word} {image : List Word}
    (h : decodeObject f = .ok (entry, image)) (hzero : (f.drop 6).take 10 = List.replicate 10 0) :
    encodeObject entry image = f := by
  obtain ⟨hmagic, hlen, heven, rfl, rfl⟩ := decodeObject_ok h
  conv_rhs => rw [eq_append_fields hlen, hmagic, hzero]
  rw [encodeObject, wordBytes_joinBytes, flatMap_imageWords _ (by simpa using heven)]
  rfl

/-! ## The load -/

section Load
variable (s : State) {f : List Byte} {entry : Word} {image : List Word}

theorem load_of_error {reason : LoadReject} (h : decodeObject f = .error reason) :
    s.load f = .refused reason s := by
  rw [State.load, h]

theorem load_of_too_long (h : decodeObject f = .ok (entry, image)) (hlen : Config.maxImageWords < image.length) :
    s.load f = .outOfMemory := by
  rw [State.load, h]
  exact if_pos hlen

theorem load_of_fits (h : decodeObject f = .ok (entry, image)) (hlen : image.length ≤ Config.maxImageWords) :
    s.load f = .loaded (s.loadImage entry image) := by
  rw [State.load, h]
  exact if_neg (Nat.not_lt.2 hlen)

/-- R241: an address of a loaded image holds the image's word, or zero past its end. -/
theorem readMem_loadImage (a : Word) : (s.loadImage entry image).readMem a = image.getD a.toNat 0 := by
  change Memory.read (imageMemory 0 image) a.toNat = _
  rw [read_imageMemory, if_pos (Nat.zero_le _)]
  rfl

end Load

/-- R242: loading an empty image at entry point 0 leaves the reset state as it is. -/
theorem loadImage_reset_nil : State.reset.loadImage 0 [] = State.reset := rfl

end Sys2Proof.Machine

namespace Sys2Proof.Proofs

open Sys2Proof.Machine

/-- Settles O47. -/
theorem objectCodecRoundTrip : Obligations.ObjectCodecRoundTrip :=
  ⟨decodeObject_encodeObject, fun _ _ _ => encodeObject_of_decodeObject⟩

/-- Settles O48, by the decoder's four equations; the last one's words are those of `getD_imageWords`. -/
theorem decodeObjectCases : Obligations.DecodeObjectCases := by
  refine fun f => ⟨decodeObject_badMagic, decodeObject_shortHeader, decodeObject_oddLength,
    fun hmagic hlen heven => ⟨imageWords (f.drop 16), ?_, by simp, fun i hi => ?_⟩⟩
  · rw [decodeObject_wellFormed hmagic hlen heven, joinBytes_eq]
  · rw [length_imageWords] at hi
    have hsecond : 16 + (2 * i + 1) = 17 + 2 * i := by omega
    rw [getD_imageWords _ i hi, joinBytes_eq]
    simp [hsecond]

/-- Settles O50: the state is `State.loadImage`'s, and its memory that of `imageMemory`. -/
theorem loadIsTheReset : Obligations.LoadIsTheReset := by
  refine ⟨fun s e ws hlen => ⟨s.loadImage e ws, load_of_fits s (decodeObject_encodeObject e ws) hlen, ?_,
    readMem_loadImage s, rfl⟩, ?_, fun _ => rfl, rfl, rfl, rfl, rfl, rfl⟩
  · exact ((sound_iff _).1 (loadImage_sound s e ws hlen)).1
  · rw [load_of_fits _ (decodeObject_encodeObject 0 []) (Nat.zero_le _), loadImage_reset_nil]

/-- Settles O46. -/
theorem encodeObjectLayout : Obligations.EncodeObjectLayout := fun e ws =>
  ⟨by rw [encodeObject_eq, List.flatMap_def]; rfl, length_encodeObject e ws⟩

/-- Settles O49. -/
theorem loadErrorCases : Obligations.LoadErrorCases := fun s _ =>
  ⟨fun _ => load_of_error s, fun _ _ => load_of_too_long s, fun _ _ h hlen => ⟨_, load_of_fits s h hlen⟩⟩

end Sys2Proof.Proofs
end
